-- ==== Sys2Proof/Word.lean ====
section
/-! DEFINITION. The word types of ECX-CORE: 256-bit data registers, 32-bit bus words and command
words, bytes of the codec buffer, byte offsets of the 4096-byte window (00_scope.md R9). -/

namespace Sys2Proof

/-- The contents of a data register (00_scope.md R9, R10: WIDTH = 256). -/
abbrev Word := BitVec 256

/-- A bus word, and a command word (00_scope.md R9: bus data width 32; 30_encoding.md R110). -/
abbrev Word32 := BitVec 32

/-- A byte of the codec buffer (10_state.md R35). -/
abbrev Byte := BitVec 8

/-- A byte offset of the window, 0x000 to 0xFFF (20_memory.md R70). -/
abbrev Offset := BitVec 12

end Sys2Proof
end

