-- ==== Sys2Proof/Syntax.lean ====
section
/-! DEFINITION. The command set as syntax: one constructor per row of the opcode map, 30_encoding.md
R115. Register numbers and selector bits are already decoded; encodings stand in Decode.lean only. -/

namespace Sys2Proof

/-- A register number, W0 to W15 (10_state.md R30). A point operand is named by the even register
number of its pair (10_state.md R31, 30_encoding.md R112); that it is even is `Instr.wf`. -/
abbrev RegNum := Fin 16

/-- The number j of a point pair PT(j) = (W[2j], W[2j+1]) (10_state.md R31). -/
abbrev PairNum := Fin 8

/-- The ms bit of a modular command: which register is the modulus (30_encoding.md R113). -/
inductive ModSel where
  | mod      -- ms = 0: MOD
  | curveP   -- ms = 1: CURVE_P
  deriving DecidableEq, Repr

/-- The c bit of PSER: which serialised form it writes (30_encoding.md R113, 43_codec.md R220). -/
inductive Form where
  | uncompressed   -- c = 0: 65 bytes
  | compressed     -- c = 1: 33 bytes
  deriving DecidableEq, Repr

/-- The thirteen commands (30_encoding.md R115), operands in the order of the assembler syntax
(30_encoding.md R118): the selector bit, then the used fields of rd, rs, rt. -/
inductive Instr where
  | mred (ms : ModSel) (rd rs : RegNum)
  | madd (ms : ModSel) (rd rs rt : RegNum)
  | msub (ms : ModSel) (rd rs rt : RegNum)
  | mmul (ms : ModSel) (rd rs rt : RegNum)
  | minv (ms : ModSel) (rd rs : RegNum)
  | pchk (rs : RegNum)
  | pneg (rd rs : RegNum)
  | padd (rd rs rt : RegNum)
  | pdbl (rd rs : RegNum)
  | pmul (rd rs rt : RegNum)
  | pser (c : Form) (rs : RegNum)
  | ppar (rd : RegNum)
  | cfg
  deriving DecidableEq, Repr

end Sys2Proof
end

