-- ==== Sys2Proof/WellFormed.lean ====
section
/-! DEFINITION. Which terms of Instr are commands: every point operand is named by an even register
number (30_encoding.md R112). The other checks of an encoding (reserved bits, unused fields) have no
counterpart in a term: they are the decoder's. -/

namespace Sys2Proof

/-- A register number that may stand in a PT field (30_encoding.md R112). -/
def RegNum.isEven (r : RegNum) : Bool := r.val % 2 == 0

/-- The commands the encoding admits: each PT field of 30_encoding.md R115 is even. -/
def Instr.wf : Instr → Bool
  | .mred _ _ _ => true
  | .madd _ _ _ _ => true
  | .msub _ _ _ _ => true
  | .mmul _ _ _ _ => true
  | .minv _ _ _ => true
  | .pchk rs => RegNum.isEven rs
  | .pneg rd rs => RegNum.isEven rd && RegNum.isEven rs
  | .padd rd rs rt => RegNum.isEven rd && RegNum.isEven rs && RegNum.isEven rt
  | .pdbl rd rs => RegNum.isEven rd && RegNum.isEven rs
  | .pmul rd rs _ => RegNum.isEven rd && RegNum.isEven rs
  | .pser _ rs => RegNum.isEven rs
  | .ppar rd => RegNum.isEven rd
  | .cfg => true

end Sys2Proof
end

