-- ==== Sys2Proof/Decode.lean ====
section
/-! DEFINITION. Decoding and encoding of command words (30_encoding.md R110 to R117). The decoder is
the table of R115 and the loop of R116; a word that matches no row is illegal (`none`). The encoder
places the fields of R111. -/

namespace Sys2Proof

/-- The mnemonics of the opcode map (30_encoding.md R115). -/
inductive Mnemonic where
  | MRED | MADD | MSUB | MMUL | MINV
  | PCHK | PNEG | PADD | PDBL | PMUL
  | PSER | PPAR | CFG
  deriving DecidableEq, Repr

/-- A row of the opcode map: w is the row's command when w &&& mask = value (the spec's "match"). -/
structure OpcodeRow where
  name  : Mnemonic
  value : Word32
  mask  : Word32
  deriving DecidableEq, Repr

/-- The opcode map, 30_encoding.md R115. -/
def opcodeTable : List OpcodeRow :=
  [ ⟨.MRED, 0x00000001#32, 0xFFEF00FF#32⟩,
    ⟨.MADD, 0x00000002#32, 0xFFE000FF#32⟩,
    ⟨.MSUB, 0x00000003#32, 0xFFE000FF#32⟩,
    ⟨.MMUL, 0x00000004#32, 0xFFE000FF#32⟩,
    ⟨.MINV, 0x00000005#32, 0xFFEF00FF#32⟩,
    ⟨.PCHK, 0x00000010#32, 0xFFFF1FFF#32⟩,
    ⟨.PNEG, 0x00000011#32, 0xFFFF11FF#32⟩,
    ⟨.PADD, 0x00000012#32, 0xFFF111FF#32⟩,
    ⟨.PDBL, 0x00000013#32, 0xFFFF11FF#32⟩,
    ⟨.PMUL, 0x00000014#32, 0xFFF011FF#32⟩,
    ⟨.PSER, 0x00000020#32, 0xFFEF1FFF#32⟩,
    ⟨.PPAR, 0x00000021#32, 0xFFFFF1FF#32⟩,
    ⟨.CFG,  0x00000030#32, 0xFFFFFFFF#32⟩ ]

/-- Whether w is the command of a row (30_encoding.md R115). -/
def OpcodeRow.holds (r : OpcodeRow) (w : Word32) : Bool := w &&& r.mask == r.value

/-- Field op, bits 7:0 (30_encoding.md R111). -/
def fieldOp (w : Word32) : BitVec 8 := w.extractLsb' 0 8

/-- Field res, bits 31:21 (30_encoding.md R111). -/
def fieldRes (w : Word32) : BitVec 11 := w.extractLsb' 21 11

/-- Field rd, bits 11:8 (30_encoding.md R111). -/
def fieldRd (w : Word32) : RegNum := (w.extractLsb' 8 4).toFin

/-- Field rs, bits 15:12 (30_encoding.md R111). -/
def fieldRs (w : Word32) : RegNum := (w.extractLsb' 12 4).toFin

/-- Field rt, bits 19:16 (30_encoding.md R111). -/
def fieldRt (w : Word32) : RegNum := (w.extractLsb' 16 4).toFin

/-- Field f, bit 20 (30_encoding.md R111). -/
def fieldF (w : Word32) : Bool := w.getLsbD 20

/-- The f bit of a modular command read as ms (30_encoding.md R113). -/
def modSelOf (f : Bool) : ModSel := if f then .curveP else .mod

/-- The f bit of PSER read as c (30_encoding.md R113). -/
def formOf (f : Bool) : Form := if f then .compressed else .uncompressed

/-- The command a matching row and a word's fields stand for (30_encoding.md R112, R115, R116). -/
def instrOf (m : Mnemonic) (w : Word32) : Instr :=
  match m with
  | .MRED => .mred (modSelOf (fieldF w)) (fieldRd w) (fieldRs w)
  | .MADD => .madd (modSelOf (fieldF w)) (fieldRd w) (fieldRs w) (fieldRt w)
  | .MSUB => .msub (modSelOf (fieldF w)) (fieldRd w) (fieldRs w) (fieldRt w)
  | .MMUL => .mmul (modSelOf (fieldF w)) (fieldRd w) (fieldRs w) (fieldRt w)
  | .MINV => .minv (modSelOf (fieldF w)) (fieldRd w) (fieldRs w)
  | .PCHK => .pchk (fieldRs w)
  | .PNEG => .pneg (fieldRd w) (fieldRs w)
  | .PADD => .padd (fieldRd w) (fieldRs w) (fieldRt w)
  | .PDBL => .pdbl (fieldRd w) (fieldRs w)
  | .PMUL => .pmul (fieldRd w) (fieldRs w) (fieldRt w)
  | .PSER => .pser (formOf (fieldF w)) (fieldRs w)
  | .PPAR => .ppar (fieldRd w)
  | .CFG => .cfg

/-- The decoder: the first row the word matches; `none` is ILLEGAL (30_encoding.md R116, R117). -/
def decode (w : Word32) : Option Instr :=
  (opcodeTable.find? fun r => r.holds w).map fun r => instrOf r.name w

/-- A command word from its fields, CMD32 (30_encoding.md R111), bits 31:21 zero. -/
def packFields (f : Bool) (rt rs rd : RegNum) (op : BitVec 8) : Word32 :=
  0#11 ++ BitVec.ofBool f ++ BitVec.ofNat 4 rt.val ++ BitVec.ofNat 4 rs.val ++
    BitVec.ofNat 4 rd.val ++ op

/-- ms as the f bit (30_encoding.md R113). -/
def ModSel.bit : ModSel → Bool
  | .mod => false
  | .curveP => true

/-- c as the f bit (30_encoding.md R113). -/
def Form.bit : Form → Bool
  | .uncompressed => false
  | .compressed => true

/-- The encoder: the command word of each command, opcodes and used fields from 30_encoding.md R115,
every unused field 0 (30_encoding.md R112). -/
def encode : Instr → Word32
  | .mred ms rd rs => packFields ms.bit 0 rs rd 0x01#8
  | .madd ms rd rs rt => packFields ms.bit rt rs rd 0x02#8
  | .msub ms rd rs rt => packFields ms.bit rt rs rd 0x03#8
  | .mmul ms rd rs rt => packFields ms.bit rt rs rd 0x04#8
  | .minv ms rd rs => packFields ms.bit 0 rs rd 0x05#8
  | .pchk rs => packFields false 0 rs 0 0x10#8
  | .pneg rd rs => packFields false 0 rs rd 0x11#8
  | .padd rd rs rt => packFields false rt rs rd 0x12#8
  | .pdbl rd rs => packFields false 0 rs rd 0x13#8
  | .pmul rd rs rt => packFields false rt rs rd 0x14#8
  | .pser c rs => packFields c.bit 0 rs 0 0x20#8
  | .ppar rd => packFields false 0 0 rd 0x21#8
  | .cfg => packFields false 0 0 0 0x30#8

/-- The command word whose low nbits bits are w and whose other bits are 0 (every command is one
32-bit word, 30_encoding.md R110; it is written to CMD whole, so there is no byte order to apply). -/
def tableWord (nbits w : Nat) : Word32 := BitVec.ofNat 32 (w % 2 ^ nbits)

/-- The decoder on a word numbered as spec/opcode_table.json numbers it. -/
def decodeTableWord (nbits w : Nat) : Option Instr :=
  if nbits ≤ 32 then decode (tableWord nbits w) else none

end Sys2Proof
end

