-- ==== Sys2Proof/Config.lean ====
section
/-! DEFINITION. The implementation parameters of 00_scope.md R9 that are not widths: the ID value and
ENGINE_BASE. The other OPEN parameters of 92_eei_decisions.md are no constants here: LATENCY,
RESET_SOURCE, BUS_PROTECTION and HOST_ORDERING are the choice of the script that State holds (log
entries 1 and 10), and IRQ_ROUTE begins where the output `State.irq` ends. -/

namespace Sys2Proof.Config

/-- The value of the read-only ID register (10_state.md R36). -/
def idValue : Word32 := 0x45430007#32

/-- The size of the window in bytes (00_scope.md R9, 20_memory.md R70). -/
def windowBytes : Nat := 4096

/-- ENGINE_BASE, the bus address of offset 0: OPEN (20_memory.md R70, 92_eei_decisions.md D7), so no
value of it can be proved. -/
opaque engineBase : Nat

end Sys2Proof.Config
end

