-- ==== Sys2Proof/Machine/State.lean ====
section
/-! DEFINITION. The state of ECX-CORE as plain data (10_state.md R30 to R50), the error conditions a
command can end in, the steps the outside world can make, and the state after reset. -/

namespace Sys2Proof.Machine

/-- The error conditions of 60_exceptions.md R267, code 0 (OK) aside. A command that meets one still
completes: STATUS.ERR reports it and no result is written (60_exceptions.md R265, R266). -/
inductive Err where
  | domain | notInvertible | invalidPoint | undefinedResult | assertion
  | illegal | config | modulus | encoding | unsupported
  deriving DecidableEq, Repr

/-- The data registers, the curve parameters and the codec buffer: the part of the state that
commands take operands from and that the host cannot write during a BUSY period (20_memory.md R79). -/
structure Data where
  /-- W0..W15 (10_state.md R30). -/
  w       : Vector Word 16
  /-- MOD (10_state.md R33). -/
  modulus : Word
  /-- CURVE_P (10_state.md R34). -/
  curveP  : Word
  /-- CURVE_A (10_state.md R34). -/
  curveA  : Word
  /-- CURVE_B (10_state.md R34). -/
  curveB  : Word
  /-- BUF[0..64] (10_state.md R35). -/
  buf     : Vector Byte 65
  /-- BUF_LEN (10_state.md R35, R47). -/
  bufLen  : BitVec 7
  deriving DecidableEq, Repr

/-- CTRL without its reserved bits (10_state.md R37). -/
structure Ctrl where
  doneIe     : Bool
  strictSqrt : Bool
  deriving DecidableEq, Repr

/-- STATUS without its reserved bits and without BUSY, which is the presence of LATCH
(10_state.md R38 to R45; log entry 5). -/
structure Status where
  done      : Bool
  onCurve   : Bool
  cfgLocked : Bool
  wign      : Bool
  cmdOvr    : Bool
  err       : BitVec 4
  deriving DecidableEq, Repr

/-- LATCH, the snapshot an issue takes (10_state.md R49, 60_exceptions.md R262). -/
structure Latch where
  word       : Word32
  data       : Data
  cfgLocked  : Bool
  strictSqrt : Bool
  deriving DecidableEq, Repr

/-- The steps of 60_exceptions.md R260: a host access at a window offset, a completion of the
in-flight command, a reset. -/
inductive Event where
  | hostRead (off : Offset)
  | hostWrite (off : Offset) (v : Word32)
  | complete
  | reset
  deriving DecidableEq, Repr

/-- The machine. `script` and `replies` are the model's own: the steps still to come, in the order the
bus, the engine and the reset input make them (60_exceptions.md R260, 20_memory.md R86; log entry 1),
and the words the host's reads have returned, newest first (log entry 4). -/
structure State where
  data    : Data
  ctrl    : Ctrl
  status  : Status
  /-- The CMD readback (10_state.md R46). -/
  cmd     : Word32
  /-- LATCH; present exactly during a BUSY period (10_state.md R49). -/
  latch   : Option Latch
  script  : List Event
  replies : List Word32
  deriving DecidableEq, Repr

/-- Why a step stops. -/
inductive Fault where
  /-- Raised by `step` where the script puts a completion although no command is in flight: not a step
  of the hardware, for a completion is enabled only when STATUS.BUSY = 1 (60_exceptions.md R260; log
  entry 3). Safe: it only drops an order of steps that cannot occur. -/
  | completionWhileIdle
  deriving DecidableEq, Repr

/-- Why an instruction has no meaning. -/
inductive Refusal where
  /-- Raised by `exec` in the arm of an instruction that is not modelled, of which there is none. Safe. -/
  | notModelled (mnemonic : String)
  deriving DecidableEq, Repr

/-- The reset value of the data registers, the curve parameters and the buffer (10_state.md R50). -/
def Data.reset : Data where
  w := Vector.replicate 16 0#256
  modulus := 0#256
  curveP := 0#256
  curveA := 0#256
  curveB := 0#256
  buf := Vector.replicate 65 0#8
  bufLen := 0#7

/-- The machine right after reset: every value is the one 10_state.md R50 states; nothing is scripted
and nothing has been read (the model's own fields, log entries 1 and 4). -/
def State.reset : State where
  data := Data.reset
  ctrl := { doneIe := false, strictSqrt := false }
  status :=
    { done := false, onCurve := false, cfgLocked := false, wign := false, cmdOvr := false, err := 0#4 }
  cmd := 0#32
  latch := none
  script := []
  replies := []

end Sys2Proof.Machine
end

