-- ==== Sys2Proof/Machine/Flags.lean ====
section
/-! DEFINITION. STATUS, CTRL, the error codes and irq: what the flag bits are, how software reads the
two registers and what writing them does (10_state.md R36 to R48, 60_exceptions.md R267, R271). -/

namespace Sys2Proof.Machine

/-- The code of an error condition in STATUS.ERR (60_exceptions.md R267); success is 0. -/
def Err.code : Err → BitVec 4
  | .domain => 1#4
  | .notInvertible => 2#4
  | .invalidPoint => 3#4
  | .undefinedResult => 4#4
  | .assertion => 5#4
  | .illegal => 6#4
  | .config => 7#4
  | .modulus => 8#4
  | .encoding => 9#4
  | .unsupported => 10#4

/-- STATUS.BUSY: a command has been issued and has not completed (10_state.md R38, R39), which is when
LATCH exists (10_state.md R49). -/
def State.busy (s : State) : Bool := s.latch.isSome

/-- The interrupt output, STATUS.DONE & CTRL.DONE_IE (60_exceptions.md R271). -/
def State.irq (s : State) : Bool := s.status.done && s.ctrl.doneIe

/-- STATUS as a read returns it (10_state.md R38): {0[31:12], ERR[11:8], 0[7:6], CMD_OVR, WIGN,
CFG_LOCKED, ONCURVE, DONE, BUSY}. -/
def State.statusWord (s : State) : Word32 :=
  0#20 ++ s.status.err ++ 0#2 ++ BitVec.ofBool s.status.cmdOvr ++ BitVec.ofBool s.status.wign ++
    BitVec.ofBool s.status.cfgLocked ++ BitVec.ofBool s.status.onCurve ++
    BitVec.ofBool s.status.done ++ BitVec.ofBool s.busy

/-- CTRL as a read returns it (10_state.md R37). -/
def State.ctrlWord (s : State) : Word32 :=
  0#30 ++ BitVec.ofBool s.ctrl.strictSqrt ++ BitVec.ofBool s.ctrl.doneIe

/-- A host write to CTRL: bits 1:0 are stored, the rest ignored, also during a BUSY period
(10_state.md R37, 20_memory.md R79). -/
def writeCtrl (v : Word32) (s : State) : State :=
  { s with ctrl := { doneIe := v.getLsbD 0, strictSqrt := v.getLsbD 1 } }

/-- A host write to STATUS: a 1 in bit 1, 4 or 5 clears DONE, WIGN or CMD_OVR, nothing else changes
(10_state.md R38). -/
def writeStatus (v : Word32) (s : State) : State :=
  { s with
    status :=
      { s.status with
        done := s.status.done && !v.getLsbD 1
        wign := s.status.wign && !v.getLsbD 4
        cmdOvr := s.status.cmdOvr && !v.getLsbD 5 } }

/-- A dropped register write sets the sticky STATUS.WIGN (10_state.md R43). -/
def setWign (s : State) : State := { s with status := { s.status with wign := true } }

/-- A dropped command word sets the sticky STATUS.CMD_OVR (10_state.md R44). -/
def setCmdOvr (s : State) : State := { s with status := { s.status with cmdOvr := true } }

end Sys2Proof.Machine
end

