-- ==== Sys2Proof/Machine/Arith.lean ====
section
/-! DEFINITION. The exact integer arithmetic inside a command (00_scope.md R10, R12): canonical
reduction, the extended Euclidean inverse, modular powers, big-endian byte strings. -/

namespace Sys2Proof.Machine

/-- `reduce(v, p)`: the Euclidean remainder of an integer, for p ≥ 1 (40_modular.md R142). -/
def reduce (v : Int) (p : Nat) : Nat := (v % (p : Int)).toNat

/-- The loop of `egcd` (40_modular.md R144). The remainder r falls at every round, so fuel ≥ r is
enough for it to reach 0. The pair (oldR, r) are the remainders, (oldS, s) the coefficients. -/
def egcdLoop (fuel oldR r : Nat) (oldS s : Int) : Nat × Int :=
  match fuel with
  | 0 => (oldR, oldS)
  | fuel + 1 =>
    if r = 0 then (oldR, oldS)
    else egcdLoop fuel r (oldR - oldR / r * r) s (oldS - (oldR / r : Nat) * s)

/-- `egcd(k, p)`, started from (k, p): the gcd and the coefficient of k (40_modular.md R144). -/
def egcd (k p : Nat) : Nat × Int := egcdLoop p k p 1 0

/-- `inverse(k, p)` for k > 0: the part after the sign tests (40_modular.md R143). -/
def inversePos (k p : Nat) : Except Err Int :=
  if (egcd k p).1 ≠ 1 then .error .notInvertible
  else if k * reduce (egcd k p).2 p % p ≠ 1 then .error .assertion
  else .ok (reduce (egcd k p).2 p)

/-- `inverse(k, p)`: DOMAIN for k = 0, p − inverse(−k, p) for k < 0 (40_modular.md R143). -/
def inverse (k : Int) (p : Nat) : Except Err Int :=
  if k = 0 then .error .domain
  else if k < 0 then (inversePos (-k).toNat p).map fun m => (p : Int) - m
  else inversePos k.toNat p

/-- The loop of `powMod`: squaring the base and halving the exponent, fuel ≥ e being enough. -/
def powModLoop (fuel b e p : Nat) : Nat :=
  match fuel with
  | 0 => 1 % p
  | fuel + 1 =>
    if e = 0 then 1 % p
    else if e % 2 = 1 then b * powModLoop fuel (b * b % p) (e / 2) p % p
    else powModLoop fuel (b * b % p) (e / 2) p

/-- `pow(b, e, p)` = b^e mod p (00_scope.md R12), computed by repeated squaring
(Laws/Arith.lean, powMod_eq). -/
def powMod (b e p : Nat) : Nat := powModLoop e (b % p) e p

/-- `be(b0..bn-1)`: the natural with these big-endian base-256 digits, 0 for none (00_scope.md R13). -/
def be (bytes : List Byte) : Nat := bytes.foldl (fun acc b => acc * 256 + b.toNat) 0

/-- `be32(v)`: the 32-byte big-endian encoding of v < 2^256 (00_scope.md R13). -/
def be32 (v : Nat) : List Byte :=
  (List.range 32).map fun i => BitVec.ofNat 8 (v / 256 ^ (31 - i))

end Sys2Proof.Machine
end

