-- ==== Sys2Proof/Machine/Operands.lean ====
section
/-! DEFINITION. The operand forms of a command (30_encoding.md R112, R113): W registers, point pairs,
the selected modulus, the curve, the buffer; every one of them read from LATCH (60_exceptions.md
R262). -/

namespace Sys2Proof.Machine

/-- The pair a PT field names, PT(field >> 1) (30_encoding.md R112). -/
def pairOf (r : RegNum) : PairNum := ⟨r.val / 2, by omega⟩

/-- The register W[2j] that holds the x of PT(j) (10_state.md R31). -/
def regX (j : PairNum) : RegNum := ⟨2 * j.val, by omega⟩

/-- The register W[2j+1] that holds the y of PT(j) (10_state.md R31). -/
def regY (j : PairNum) : RegNum := ⟨2 * j.val + 1, by omega⟩

/-- A point operand or result: an (x, y) pair of naturals (10_state.md R31). -/
abbrev Point := Nat × Nat

/-- The curve a curve or codec command works on: CURVE_P, CURVE_A, CURVE_B (41_curve.md, heading). -/
structure Curve where
  p : Nat
  a : Nat
  b : Nat
  deriving DecidableEq, Repr

/-- A scalar operand, kind W (30_encoding.md R112). -/
def Latch.reg (o : Latch) (r : RegNum) : Nat := (o.data.w[r]).toNat

/-- A point operand, kind PT (30_encoding.md R112): the raw register pair. -/
def Latch.point (o : Latch) (r : RegNum) : Point := (o.reg (regX (pairOf r)), o.reg (regY (pairOf r)))

/-- The curve as latched. -/
def Latch.curve (o : Latch) : Curve := ⟨o.data.curveP.toNat, o.data.curveA.toNat, o.data.curveB.toNat⟩

/-- The modulus register the ms bit selects (40_modular.md R141). -/
def Latch.selected (o : Latch) (ms : ModSel) : Nat :=
  match ms with
  | .mod => o.data.modulus.toNat
  | .curveP => o.data.curveP.toNat

/-- `select(ms)`: the selected modulus, or MODULUS when it is 0 (40_modular.md R141). -/
def Latch.select (o : Latch) (ms : ModSel) : Except Err Nat :=
  if o.selected ms = 0 then .error .modulus else .ok (o.selected ms)

/-- BUF as a list of its bytes, BUF[0] first. -/
def Latch.bytes (o : Latch) : List Byte := o.data.buf.toList

end Sys2Proof.Machine
end

