-- ==== Sys2Proof/Machine/Ops.lean ====
section
/-! DEFINITION. The shared operations on the state: the snapshot and the issue of a command
(60_exceptions.md R261, R262), the writes a command may make, and its completion, with or without an
error (60_exceptions.md R263, R266). The engine has no trap: the error completion is its one way to
report a failure, and there is no return from one (60_exceptions.md R265, R272, R273). -/

namespace Sys2Proof.Machine

/-- The writes a successful command asks for (60_exceptions.md R263). -/
inductive Effect where
  /-- W[rd] <- v: the modular commands (40_modular.md R140). -/
  | reg (rd : RegNum) (v : Nat)
  /-- PT(rd >> 1) <- (x, y): PNEG, PADD, PDBL, PMUL, PPAR. -/
  | pair (rd : RegNum) (pt : Point)
  /-- STATUS.ONCURVE <- b: PCHK (41_curve.md R175). -/
  | onCurve (b : Bool)
  /-- BUF <- bytes, zeros after them, and BUF_LEN <- their number: PSER (43_codec.md R222). -/
  | buffer (bytes : List Byte)
  /-- STATUS.CFG_LOCKED <- 1: CFG (44_config.md R250). -/
  | lock
  deriving DecidableEq, Repr

/-- The snapshot of 60_exceptions.md R262 for a command word. -/
def snapshot (word : Word32) (s : State) : Latch :=
  { word := word, data := s.data, cfgLocked := s.status.cfgLocked, strictSqrt := s.ctrl.strictSqrt }

/-- An issue: LATCH taken, CMD readback written, BUSY set with LATCH, DONE cleared, nothing else
changed (60_exceptions.md R261). -/
def issue (word : Word32) (s : State) : State :=
  { s with
    latch := some (snapshot word s)
    cmd := word
    status := { s.status with done := false } }

/-- The operands a completing command reads: LATCH. Where no command is in flight (no step calls a
meaning there) the current registers stand for it, as if it were issued now (log entry 7). -/
def State.operands (s : State) : Latch :=
  match s.latch with
  | some l => l
  | none => snapshot s.cmd s

/-- W[rd] <- v for a v < 2^256 (00_scope.md R10, R13). -/
def writeReg (r : RegNum) (v : Nat) (s : State) : State :=
  { s with data := { s.data with w := s.data.w.set r (BitVec.ofNat 256 v) } }

/-- PT(r >> 1) <- (x, y) (00_scope.md R13). -/
def writePair (r : RegNum) (pt : Point) (s : State) : State :=
  writeReg (regY (pairOf r)) pt.2 (writeReg (regX (pairOf r)) pt.1 s)

/-- BUF from a list of at most 65 bytes, BUF[k] = 0x00 past its end (43_codec.md R222). -/
def bufferOf (bytes : List Byte) : Vector Byte 65 :=
  ⟨⟨(List.range 65).map fun k => bytes.getD k 0#8⟩, by simp⟩

/-- BUF and BUF_LEN <- a serialised point (43_codec.md R222). -/
def writeBuffer (bytes : List Byte) (s : State) : State :=
  { s with data := { s.data with buf := bufferOf bytes, bufLen := BitVec.ofNat 7 bytes.length } }

/-- STATUS.ONCURVE <- b (10_state.md R41). -/
def writeOnCurve (b : Bool) (s : State) : State :=
  { s with status := { s.status with onCurve := b } }

/-- STATUS.CFG_LOCKED <- 1 (10_state.md R42). -/
def lockConfig (s : State) : State := { s with status := { s.status with cfgLocked := true } }

/-- The writes of a successful command, applied (60_exceptions.md R263). -/
def applyEffect : Effect → State → State
  | .reg rd v, s => writeReg rd v s
  | .pair rd pt, s => writePair rd pt s
  | .onCurve b, s => writeOnCurve b s
  | .buffer bytes, s => writeBuffer bytes s
  | .lock, s => lockConfig s

/-- What every completion does: BUSY cleared (with LATCH), DONE set, ERR written (60_exceptions.md
R263). -/
def finish (code : BitVec 4) (s : State) : State :=
  { s with latch := none, status := { s.status with done := true, err := code } }

/-- Completion with the outcome of a command: its writes and ERR = 0, or no write and the error's code
(60_exceptions.md R263, R266). -/
def complete (outcome : Except Err Effect) (s : State) : State :=
  match outcome with
  | .ok e => finish 0#4 (applyEffect e s)
  | .error e => finish e.code s

/-- The CONFIG test of the commands that need the curve: it comes before any other test of the command
(41_curve.md R174, 10_state.md R42). -/
def requireLocked (o : Latch) (outcome : Except Err Effect) : Except Err Effect :=
  if o.cfgLocked then outcome else .error .config

/-- Reset: every piece of the engine's state takes its value of 10_state.md R50, a command in flight is
abandoned (70_reset_and_hazards.md R290). The host's coming steps and what it has read are not the
engine's (log entry 8). -/
def resetEngine (s : State) : State :=
  { State.reset with script := s.script, replies := s.replies }

end Sys2Proof.Machine
end

