-- ==== Sys2Proof/Machine/Codec.lean ====
section
/-! DEFINITION. The point codec, PSER and PPAR, with the square-root decompression (43_codec.md R220
to R231). -/

namespace Sys2Proof.Machine

/-- `serialize(x, y, c)`: 33 or 65 bytes, raw values (43_codec.md R220, R221). -/
def serialize (x y : Nat) (c : Form) : List Byte :=
  match c with
  | .compressed => (if y % 2 = 0 then 0x02#8 else 0x03#8) :: be32 x
  | .uncompressed => 0x04#8 :: (be32 x ++ be32 y)

/-- The computed square root y2^((p+1) div 4) mod p of y2 = x³ + a·x + b (43_codec.md R225). -/
def computedRoot (c : Curve) (x : Nat) : Nat :=
  powMod (reduce ((x : Int) ^ 3 + c.a * x + c.b) c.p) ((c.p + 1) / 4) c.p

/-- Parity selection: p − y where the parity of y is not that of the byte (43_codec.md R225, R227). -/
def matchParity (p y : Nat) (pre : Byte) : Nat := if y % 2 ≠ pre.toNat % 2 then p - y else y

/-- `decompress(x, pre, strict)` (43_codec.md R225, R226). -/
def decompress (c : Curve) (x : Nat) (pre : Byte) (strict : Bool) : Except Err Point :=
  if strict && c.p % 4 != 3 then .error .unsupported
  else .ok (x, matchParity c.p (computedRoot c x) pre)

/-- `uncompressed(BUF, L, x)`: y = be(BUF[33 .. L−1]), neither reduced nor checked (43_codec.md R224). -/
def parseUncompressed (bytes : List Byte) (len x : Nat) : Point := (x, be ((bytes.take len).drop 33))

/-- The x of a serialised point, be(BUF[1 .. 32]) (43_codec.md R223). -/
def parseX (bytes : List Byte) : Nat := be ((bytes.drop 1).take 32)

/-- `parse(BUF, L, strict)` (43_codec.md R223). -/
def parse (c : Curve) (bytes : List Byte) (len : Nat) (strict : Bool) : Except Err Point :=
  if len < 33 ∨ 65 < len then .error .encoding
  else if bytes.getD 0 0#8 = 0x04#8 then .ok (parseUncompressed bytes len (parseX bytes))
  else decompress c (parseX bytes) (bytes.getD 0 0#8) strict

/-- BUF, BUF_LEN <- the serialised raw pair; no CFG needed (43_codec.md R222). -/
def cmdPser (o : Latch) (c : Form) (rs : RegNum) : Except Err Effect :=
  .ok (.buffer (serialize (o.point rs).1 (o.point rs).2 c))

/-- PT(rd >> 1) <- parse(BUF, BUF_LEN, STRICT_SQRT) (43_codec.md R228). -/
def cmdPpar (o : Latch) (rd : RegNum) : Except Err Effect :=
  requireLocked o <|
    (parse o.curve o.bytes o.data.bufLen.toNat o.strictSqrt).map fun pt => .pair rd pt

/-- PSER (43_codec.md R222). -/
def execPser (c : Form) (rs : RegNum) (s : State) : Host.Outcome State Fault Refusal :=
  .next (complete (cmdPser s.operands c rs) s)

/-- PPAR (43_codec.md R228). -/
def execPpar (rd : RegNum) (s : State) : Host.Outcome State Fault Refusal :=
  .next (complete (cmdPpar s.operands rd) s)

end Sys2Proof.Machine
end

