-- ==== Sys2Proof/Machine/Configure.lean ====
section
/-! DEFINITION. The configuration command CFG (44_config.md R250 to R252). -/

namespace Sys2Proof.Machine

/-- CONFIG when already locked, MODULUS when CURVE_P = 0, else CFG_LOCKED <- 1 (44_config.md R250). -/
def cmdCfg (o : Latch) : Except Err Effect :=
  if o.cfgLocked then .error .config
  else if o.curve.p = 0 then .error .modulus
  else .ok .lock

/-- CFG (44_config.md R250). -/
def execCfg (s : State) : Host.Outcome State Fault Refusal :=
  .next (complete (cmdCfg s.operands) s)

end Sys2Proof.Machine
end

