-- ==== Sys2Proof/Machine/Curve.lean ====
section
/-! DEFINITION. The curve commands PCHK, PNEG, PADD, PDBL and the group law (41_curve.md R170 to
R179). -/

namespace Sys2Proof.Machine

/-- `onCurve(x, y)`: reduce(y² − x³ − a·x − b, p) = 0 (41_curve.md R170). -/
def onCurve (c : Curve) (x y : Nat) : Bool :=
  reduce ((y : Int) ^ 2 - (x : Int) ^ 3 - c.a * x - c.b) c.p == 0

/-- `decodePoint(xr, yr)`: both coordinates reduced (41_curve.md R171). -/
def decodePoint (c : Curve) (pt : Point) : Point := (reduce pt.1 c.p, reduce pt.2 c.p)

/-- The slope of the doubling case, (3·x1² + a) · inverse(2·y1, p) (41_curve.md R172). -/
def tangentSlope (c : Curve) (x1 y1 : Nat) : Except Err Nat :=
  (inverse (2 * y1) c.p).map fun i => reduce ((3 * (x1 : Int) ^ 2 + c.a) * i) c.p

/-- The slope of the addition case, (y1 − y2) · inverse(x1 − x2, p), the difference passed to inverse
unreduced (41_curve.md R172). -/
def chordSlope (c : Curve) (x1 y1 x2 y2 : Nat) : Except Err Nat :=
  (inverse ((x1 : Int) - x2) c.p).map fun i => reduce (((y1 : Int) - y2) * i) c.p

/-- The slope of the line through two on-curve points, or UNDEFINED_RESULT for P + (−P)
(41_curve.md R172). -/
def slope (c : Curve) (x1 y1 x2 y2 : Nat) : Except Err Nat :=
  if x1 = x2 then
    if y1 ≠ y2 then .error .undefinedResult else tangentSlope c x1 y1
  else chordSlope c x1 y1 x2 y2

/-- The result's x, reduce(m² − x1 − x2, p) (41_curve.md R172). -/
def sumX (c : Curve) (x1 x2 m : Nat) : Nat := reduce ((m : Int) ^ 2 - x1 - x2) c.p

/-- The result's y, reduce(m·(x1 − xr) − y1, p) (41_curve.md R172). -/
def sumY (c : Curve) (x1 y1 xr m : Nat) : Nat := reduce ((m : Int) * ((x1 : Int) - xr) - y1) c.p

/-- The third point of the line of slope m, with the postcondition test that a model must keep
(41_curve.md R172, R173). -/
def sumPoint (c : Curve) (x1 y1 x2 m : Nat) : Except Err Point :=
  if onCurve c (sumX c x1 x2 m) (sumY c x1 y1 (sumX c x1 x2 m) m) then
    .ok (sumX c x1 x2 m, sumY c x1 y1 (sumX c x1 x2 m) m)
  else .error .invalidPoint

/-- The group law on decoded points: the preconditions, the slope, the sum (41_curve.md R172). -/
def addDecoded (c : Curve) (x1 y1 x2 y2 : Nat) : Except Err Point :=
  if !onCurve c x1 y1 || !onCurve c x2 y2 then .error .invalidPoint
  else
    match slope c x1 y1 x2 y2 with
    | .error e => .error e
    | .ok m => sumPoint c x1 y1 x2 m

/-- `groupAdd(P, Q)` on raw pairs (41_curve.md R172). -/
def groupAdd (c : Curve) (P Q : Point) : Except Err Point :=
  addDecoded c (decodePoint c P).1 (decodePoint c P).2 (decodePoint c Q).1 (decodePoint c Q).2

/-- PNEG's result: (x, reduce(−y, p)) of an on-curve point (41_curve.md R176). -/
def negatePoint (c : Curve) (P : Point) : Except Err Point :=
  if onCurve c (decodePoint c P).1 (decodePoint c P).2 then
    .ok ((decodePoint c P).1, reduce (-((decodePoint c P).2 : Int)) c.p)
  else .error .invalidPoint

/-- STATUS.ONCURVE <- onCurve of the decoded point (41_curve.md R175). -/
def cmdPchk (o : Latch) (rs : RegNum) : Except Err Effect :=
  requireLocked o <|
    .ok (.onCurve
      (onCurve o.curve (decodePoint o.curve (o.point rs)).1 (decodePoint o.curve (o.point rs)).2))

/-- PT(rd >> 1) <- the negated point (41_curve.md R176). -/
def cmdPneg (o : Latch) (rd rs : RegNum) : Except Err Effect :=
  requireLocked o <| (negatePoint o.curve (o.point rs)).map fun pt => .pair rd pt

/-- PT(rd >> 1) <- groupAdd of two pairs (41_curve.md R177). -/
def cmdPadd (o : Latch) (rd rs rt : RegNum) : Except Err Effect :=
  requireLocked o <| (groupAdd o.curve (o.point rs) (o.point rt)).map fun pt => .pair rd pt

/-- PT(rd >> 1) <- groupAdd of a pair with itself (41_curve.md R178). -/
def cmdPdbl (o : Latch) (rd rs : RegNum) : Except Err Effect :=
  requireLocked o <| (groupAdd o.curve (o.point rs) (o.point rs)).map fun pt => .pair rd pt

/-- PCHK (41_curve.md R175). -/
def execPchk (rs : RegNum) (s : State) : Host.Outcome State Fault Refusal :=
  .next (complete (cmdPchk s.operands rs) s)

/-- PNEG (41_curve.md R176). -/
def execPneg (rd rs : RegNum) (s : State) : Host.Outcome State Fault Refusal :=
  .next (complete (cmdPneg s.operands rd rs) s)

/-- PADD (41_curve.md R177). -/
def execPadd (rd rs rt : RegNum) (s : State) : Host.Outcome State Fault Refusal :=
  .next (complete (cmdPadd s.operands rd rs rt) s)

/-- PDBL (41_curve.md R178). -/
def execPdbl (rd rs : RegNum) (s : State) : Host.Outcome State Fault Refusal :=
  .next (complete (cmdPdbl s.operands rd rs) s)

end Sys2Proof.Machine
end

