-- ==== Sys2Proof/Machine/Modular.lean ====
section
/-! DEFINITION. The modular arithmetic commands MRED, MADD, MSUB, MMUL, MINV (40_modular.md R140 to
R152): each computes its exact integer result, reduces it, and writes one register. -/

namespace Sys2Proof.Machine

/-- The template of the family (40_modular.md R140): select the modulus, compute, write W[rd]. -/
def modularCommand (o : Latch) (ms : ModSel) (rd : RegNum) (result : Nat → Except Err Nat) :
    Except Err Effect :=
  match o.select ms with
  | .error e => .error e
  | .ok p => (result p).map fun v => .reg rd v

/-- W[rd] <- reduce(W[rs], p) (40_modular.md R145). -/
def cmdMred (o : Latch) (ms : ModSel) (rd rs : RegNum) : Except Err Effect :=
  modularCommand o ms rd fun p => .ok (reduce (o.reg rs) p)

/-- W[rd] <- reduce(W[rs] + W[rt], p) (40_modular.md R146). -/
def cmdMadd (o : Latch) (ms : ModSel) (rd rs rt : RegNum) : Except Err Effect :=
  modularCommand o ms rd fun p => .ok (reduce ((o.reg rs : Int) + o.reg rt) p)

/-- W[rd] <- reduce(W[rs] − W[rt], p), the difference exact and maybe negative (40_modular.md R147). -/
def cmdMsub (o : Latch) (ms : ModSel) (rd rs rt : RegNum) : Except Err Effect :=
  modularCommand o ms rd fun p => .ok (reduce ((o.reg rs : Int) - o.reg rt) p)

/-- W[rd] <- reduce(W[rs] · W[rt], p), the ordinary residue (40_modular.md R148, 90_conflicts.md C1). -/
def cmdMmul (o : Latch) (ms : ModSel) (rd rs rt : RegNum) : Except Err Effect :=
  modularCommand o ms rd fun p => .ok (reduce ((o.reg rs : Int) * o.reg rt) p)

/-- W[rd] <- inverse(W[rs], p) (40_modular.md R149). -/
def cmdMinv (o : Latch) (ms : ModSel) (rd rs : RegNum) : Except Err Effect :=
  modularCommand o ms rd fun p => (inverse (o.reg rs) p).map Int.toNat

/-- MRED (40_modular.md R145). -/
def execMred (ms : ModSel) (rd rs : RegNum) (s : State) : Host.Outcome State Fault Refusal :=
  .next (complete (cmdMred s.operands ms rd rs) s)

/-- MADD (40_modular.md R146). -/
def execMadd (ms : ModSel) (rd rs rt : RegNum) (s : State) : Host.Outcome State Fault Refusal :=
  .next (complete (cmdMadd s.operands ms rd rs rt) s)

/-- MSUB (40_modular.md R147). -/
def execMsub (ms : ModSel) (rd rs rt : RegNum) (s : State) : Host.Outcome State Fault Refusal :=
  .next (complete (cmdMsub s.operands ms rd rs rt) s)

/-- MMUL (40_modular.md R148). -/
def execMmul (ms : ModSel) (rd rs rt : RegNum) (s : State) : Host.Outcome State Fault Refusal :=
  .next (complete (cmdMmul s.operands ms rd rs rt) s)

/-- MINV (40_modular.md R149). -/
def execMinv (ms : ModSel) (rd rs : RegNum) (s : State) : Host.Outcome State Fault Refusal :=
  .next (complete (cmdMinv s.operands ms rd rs) s)

end Sys2Proof.Machine
end

