-- ==== Sys2Proof/Machine/Scalar.lean ====
section
/-! DEFINITION. Scalar multiplication, PMUL: LSB-first double-and-add over the full scalar
(42_scalar.md R200 to R205). -/

namespace Sys2Proof.Machine

/-- Fold the addend into the accumulator: the first fold assigns it (42_scalar.md R200). -/
def foldAddend (c : Curve) (acc : Option Point) (addend : Point) : Except Err (Option Point) :=
  match acc with
  | none => .ok (some addend)
  | some a => (groupAdd c a addend).map some

/-- The loop of `scalarMul` (42_scalar.md R200): fold where the low bit of n is 1, double the addend in
every round, halve n. n falls at every round, so fuel ≥ n is enough for it to reach 0. -/
def scalarLoop (c : Curve) (fuel n : Nat) (acc : Option Point) (addend : Point) :
    Except Err (Option Point) :=
  match fuel with
  | 0 => .ok acc
  | fuel + 1 =>
    if n = 0 then .ok acc
    else
      match (if n % 2 = 1 then foldAddend c acc addend else .ok acc) with
      | .error e => .error e
      | .ok acc' =>
        match groupAdd c addend addend with
        | .error e => .error e
        | .ok addend' => scalarLoop c fuel (n / 2) acc' addend'

/-- The accumulator at the end of the loop; it is never NONE there (42_scalar.md R200;
Laws/Curve.lean, scalarLoop_isSome), so what NONE would answer is no behaviour of the engine (log entry 12). -/
def accumulated : Option Point → Except Err Point
  | some pt => .ok pt
  | none => .error .domain

/-- `scalarMul(P, n)` (42_scalar.md R200): the DOMAIN test is against the field prime, and the loop
runs over the unreduced n (42_scalar.md R202). -/
def scalarMul (c : Curve) (P : Point) (n : Nat) : Except Err Point :=
  if !onCurve c (decodePoint c P).1 (decodePoint c P).2 then .error .invalidPoint
  else if reduce n c.p = 0 then .error .domain
  else
    match scalarLoop c n n none (decodePoint c P) with
    | .error e => .error e
    | .ok acc => accumulated acc

/-- PT(rd >> 1) <- scalarMul(PT(rs >> 1), W[rt]) (42_scalar.md R201). -/
def cmdPmul (o : Latch) (rd rs rt : RegNum) : Except Err Effect :=
  requireLocked o <| (scalarMul o.curve (o.point rs) (o.reg rt)).map fun pt => .pair rd pt

/-- PMUL (42_scalar.md R201). -/
def execPmul (rd rs rt : RegNum) (s : State) : Host.Outcome State Fault Refusal :=
  .next (complete (cmdPmul s.operands rd rs rt) s)

end Sys2Proof.Machine
end

