-- ==== Sys2Proof/Machine/Dispatch.lean ====
section
/-! DEFINITION. The meaning of each command: one arm per constructor of Instr, one call per arm. -/

namespace Sys2Proof.Machine

/-- The completion of a decoded command (60_exceptions.md R263), its rule taken by constructor. -/
def exec (i : Instr) (s : State) : Host.Outcome State Fault Refusal :=
  match i with
  | .mred ms rd rs => Sys2Proof.Machine.execMred ms rd rs s
  | .madd ms rd rs rt => Sys2Proof.Machine.execMadd ms rd rs rt s
  | .msub ms rd rs rt => Sys2Proof.Machine.execMsub ms rd rs rt s
  | .mmul ms rd rs rt => Sys2Proof.Machine.execMmul ms rd rs rt s
  | .minv ms rd rs => Sys2Proof.Machine.execMinv ms rd rs s
  | .pchk rs => Sys2Proof.Machine.execPchk rs s
  | .pneg rd rs => Sys2Proof.Machine.execPneg rd rs s
  | .padd rd rs rt => Sys2Proof.Machine.execPadd rd rs rt s
  | .pdbl rd rs => Sys2Proof.Machine.execPdbl rd rs s
  | .pmul rd rs rt => Sys2Proof.Machine.execPmul rd rs rt s
  | .pser c rs => Sys2Proof.Machine.execPser c rs s
  | .ppar rd => Sys2Proof.Machine.execPpar rd s
  | .cfg => Sys2Proof.Machine.execCfg s

end Sys2Proof.Machine
end

