-- ==== Sys2Proof/Machine/Window.lean ====
section
/-! DEFINITION. The host's window: the address map, 32-bit reads and writes of its words, and what a
write does while a command is in flight or the curve is locked (20_memory.md R70 to R81). -/

namespace Sys2Proof.Machine

/-- The 256-bit registers of the window (20_memory.md R73). -/
inductive DataReg where
  | w (i : RegNum)
  | modulus
  | curveP
  | curveA
  | curveB
  deriving DecidableEq, Repr

/-- What a window word is (20_memory.md R72). -/
inductive Target where
  | id
  | ctrl
  | status
  | cmd
  | bufLen
  | buf (w : Fin 17)
  | data (r : DataReg) (k : Fin 8)
  | reserved
  deriving DecidableEq, Repr

/-- The window offset of a bus address, if the engine answers it: ENGINE_BASE + offset
(20_memory.md R70). -/
def busOffset (addr : Nat) : Option Offset :=
  if Config.engineBase ≤ addr ∧ addr < Config.engineBase + Config.windowBytes then
    some (BitVec.ofNat 12 (addr - Config.engineBase))
  else none

/-- The word index, offset bits 11:2; bits 1:0 are ignored (20_memory.md R71). -/
def wordIndex (off : Offset) : Nat := off.toNat / 4

/-- The address map of 20_memory.md R72, by word index. -/
def targetOf (n : Nat) : Target :=
  if n = 0x000 / 4 then .id
  else if n = 0x004 / 4 then .ctrl
  else if n = 0x008 / 4 then .status
  else if n = 0x00C / 4 then .cmd
  else if n = 0x010 / 4 then .bufLen
  else if n < 0x100 / 4 then .reserved
  else if n ≤ 0x140 / 4 then .buf (Fin.ofNat 17 (n - 0x100 / 4))
  else if n < 0x200 / 4 then .reserved
  else if n < 0x400 / 4 then .data (.w (Fin.ofNat 16 ((n - 0x200 / 4) / 8))) (Fin.ofNat 8 n)
  else if n < 0x420 / 4 then .data .modulus (Fin.ofNat 8 n)
  else if n < 0x440 / 4 then .data .curveP (Fin.ofNat 8 n)
  else if n < 0x460 / 4 then .data .curveA (Fin.ofNat 8 n)
  else if n < 0x480 / 4 then .data .curveB (Fin.ofNat 8 n)
  else .reserved

/-- What a window offset addresses (20_memory.md R71, R72). -/
def windowTarget (off : Offset) : Target := targetOf (wordIndex off)

/-- The value of a 256-bit register of the window. -/
def Data.get (d : Data) : DataReg → Word
  | .w i => d.w[i]
  | .modulus => d.modulus
  | .curveP => d.curveP
  | .curveA => d.curveA
  | .curveB => d.curveB

/-- A 256-bit register of the window, written. -/
def Data.put (d : Data) (v : Word) : DataReg → Data
  | .w i => { d with w := d.w.set i v }
  | .modulus => { d with modulus := v }
  | .curveP => { d with curveP := v }
  | .curveA => { d with curveA := v }
  | .curveB => { d with curveB := v }

/-- Whether CFG locks a register (10_state.md R34, 20_memory.md R80). -/
def DataReg.isCurve : DataReg → Bool
  | .w _ => false
  | .modulus => false
  | .curveP => true
  | .curveA => true
  | .curveB => true

/-- Word k of a 256-bit register, bits 32k+31..32k (20_memory.md R73). -/
def getWord (r : Word) (k : Fin 8) : Word32 := r.extractLsb' (32 * k.val) 32

/-- A 256-bit register with word k replaced and the other 224 bits kept (20_memory.md R73). -/
def putWord (r : Word) (k : Fin 8) (v : Word32) : Word :=
  (r &&& ~~~((0xFFFFFFFF#256) <<< (32 * k.val))) ||| (v.setWidth 256 <<< (32 * k.val))

/-- Word w of BUF, BUF[4w] in bits 7:0; the bytes past BUF[64] read 0 (20_memory.md R74). -/
def getBufWord (buf : Vector Byte 65) (w : Fin 17) : Word32 :=
  buf[4 * w.val + 3]?.getD 0#8 ++ buf[4 * w.val + 2]?.getD 0#8 ++ buf[4 * w.val + 1]?.getD 0#8 ++
    buf[4 * w.val]?.getD 0#8

/-- BUF with the bytes of word w replaced; what lies past BUF[64] is ignored (20_memory.md R74). -/
def putBufWord (buf : Vector Byte 65) (w : Fin 17) (v : Word32) : Vector Byte 65 :=
  (((buf.setIfInBounds (4 * w.val) (v.extractLsb' 0 8)).setIfInBounds (4 * w.val + 1)
    (v.extractLsb' 8 8)).setIfInBounds (4 * w.val + 2) (v.extractLsb' 16 8)).setIfInBounds
      (4 * w.val + 3) (v.extractLsb' 24 8)

/-- HostRead: the word at a window offset, with no side effect (20_memory.md R72 to R77, R81). -/
def hostRead (off : Offset) (s : State) : Word32 :=
  match windowTarget off with
  | .id => Config.idValue
  | .ctrl => s.ctrlWord
  | .status => s.statusWord
  | .cmd => s.cmd
  | .bufLen => s.data.bufLen.setWidth 32
  | .buf w => getBufWord s.data.buf w
  | .data r k => getWord (s.data.get r) k
  | .reserved => 0#32

/-- A write to the data registers, BUF or BUF_LEN: dropped and flagged in WIGN where it is blocked
(20_memory.md R79, R80). -/
def dataWrite (blocked : Bool) (d : Data) (s : State) : State :=
  if blocked then setWign s else { s with data := d }

/-- A write to CMD: an issue, or dropped and flagged in CMD_OVR during a BUSY period (10_state.md R46,
20_memory.md R79). -/
def cmdWrite (v : Word32) (s : State) : State := if s.busy then setCmdOvr s else issue v s

/-- HostWrite: 32 bits to the word at a window offset (20_memory.md R72 to R80). -/
def hostWrite (off : Offset) (v : Word32) (s : State) : State :=
  match windowTarget off with
  | .id => s
  | .ctrl => writeCtrl v s
  | .status => writeStatus v s
  | .cmd => cmdWrite v s
  | .bufLen => dataWrite s.busy { s.data with bufLen := v.setWidth 7 } s
  | .buf w => dataWrite s.busy { s.data with buf := putBufWord s.data.buf w v } s
  | .data r k =>
    dataWrite (s.busy || (r.isCurve && s.status.cfgLocked))
      (s.data.put (putWord (s.data.get r) k v) r) s
  | .reserved => s

end Sys2Proof.Machine
end

