-- ==== Sys2Proof/Machine/Engine.lean ====
section
/-! DEFINITION. The engine's own step, the completion of the command in flight, and the effect of one
step of the sequence of host accesses, completions and resets (60_exceptions.md R260, R263). -/

namespace Sys2Proof.Machine

/-- The completion of a command word: ILLEGAL where it decodes to nothing, else the command's meaning
(30_encoding.md R116, R117, 60_exceptions.md R263). -/
def completeWord (word : Word32) (s : State) : Host.Outcome State Fault Refusal :=
  match decode word with
  | none => .next (complete (.error .illegal) s)
  | some i => exec i s

/-- The engine step, enabled only while a command is in flight (60_exceptions.md R260; log entry 3). -/
def completion (s : State) : Host.Outcome State Fault Refusal :=
  match s.latch with
  | none => .fault .completionWhileIdle
  | some l => completeWord l.word s

/-- One step of the sequence (60_exceptions.md R260): a read hands its word to the host. -/
def runEvent (e : Event) (s : State) : Host.Outcome State Fault Refusal :=
  match e with
  | .hostRead off => .next { s with replies := hostRead off s :: s.replies }
  | .hostWrite off v => .next (hostWrite off v s)
  | .complete => completion s
  | .reset => .next (resetEngine s)

/-- The step where nothing is scripted: the engine completes its command (60_exceptions.md R264), and an
idle engine keeps all state (60_exceptions.md R279; log entry 2). -/
def unscripted (s : State) : Host.Outcome State Fault Refusal :=
  if s.busy then completion s else .next s

/-- The next step of the sequence, taken off the script. -/
def nextStep (s : State) : Host.Outcome State Fault Refusal :=
  match s.script with
  | [] => unscripted s
  | e :: rest => runEvent e { s with script := rest }

end Sys2Proof.Machine
end

