-- ==== Sys2Proof/Machine/Step.lean ====
section
/-! DEFINITION. One step of the machine, and how a given command word is made the next one to run. -/

namespace Sys2Proof.Machine

/-- One step: one host access, one completion or one reset (60_exceptions.md R260). -/
def step (s : State) : Host.Outcome State Fault Refusal := nextStep s

/-- s with a command word issued (60_exceptions.md R261) and its completion as the next step: the engine
fetches no program, a command word acts when the host writes it to CMD (20_memory.md R89; log entry 9). -/
def State.withFetchWord (s : State) (nbits w : Nat) : State :=
  { issue (tableWord nbits w) s with script := .complete :: s.script }

end Sys2Proof.Machine
end

