-- ==== Sys2Proof/Safety.lean ====
section
/-! DEFINITION. What claims say about states and runs: the invariant of the engine, what a completion may
leave, and the frames of the commands. -/

namespace Sys2Proof.Machine

/-- A latch that holds what the registers hold: the command word is the CMD readback and every latched
value but STRICT_SQRT equals its current one (60_exceptions.md R262). -/
structure Latch.Agrees (l : Latch) (s : State) : Prop where
  word : l.word = s.cmd
  data : l.data = s.data
  cfgLocked : l.cfgLocked = s.status.cfgLocked

/-- The invariant every step keeps. -/
structure State.Inv (s : State) : Prop where
  /-- During a BUSY period the latched registers equal the current ones (60_exceptions.md R262). -/
  latch : ∀ l, s.latch = some l → l.Agrees s
  /-- DONE and BUSY are never both 1 (10_state.md R40). -/
  done : s.busy = true → s.status.done = false
  /-- A locked curve has p ≥ 1 (41_curve.md R174). -/
  locked : s.status.cfgLocked = true → s.data.curveP ≠ 0
  /-- ERR never holds a reserved code (60_exceptions.md R267). -/
  err : s.status.err.toNat ≤ 10
  /-- ONCURVE is 1 only after a PCHK, which needs the locked curve (10_state.md R41, 41_curve.md R174). -/
  onCurve : s.status.onCurve = true → s.status.cfgLocked = true

/-- s with a command completed by an error code: nothing but BUSY, DONE and ERR differs
(60_exceptions.md R266). -/
def completedWith (code : BitVec 4) (s : State) : State :=
  { s with latch := none, status := { s.status with done := true, err := code } }

/-- t is s after a command that completed without error and wrote no status bit of its own: DONE set,
BUSY and ERR cleared; CTRL, CMD, the script and the replies as before (60_exceptions.md R263). -/
structure CompletedOk (s t : State) : Prop where
  ctrl : t.ctrl = s.ctrl
  cmd : t.cmd = s.cmd
  script : t.script = s.script
  replies : t.replies = s.replies
  busy : t.latch = none
  done : t.status.done = true
  err : t.status.err = 0#4
  wign : t.status.wign = s.status.wign
  cmdOvr : t.status.cmdOvr = s.status.cmdOvr

/-- The registers outside a list, MOD, the curve parameters, BUF and BUF_LEN are as before. -/
structure DataKeptBut (written : List RegNum) (s t : State) : Prop where
  w : ∀ r : RegNum, r ∉ written → t.data.w[r] = s.data.w[r]
  modulus : t.data.modulus = s.data.modulus
  curveP : t.data.curveP = s.data.curveP
  curveA : t.data.curveA = s.data.curveA
  curveB : t.data.curveB = s.data.curveB
  buf : t.data.buf = s.data.buf
  bufLen : t.data.bufLen = s.data.bufLen

/-- t is s after a successful command that writes only the listed W registers: the frame of the modular
commands and of PNEG, PADD, PDBL, PMUL and PPAR (40_modular.md R140, 41_curve.md R174). -/
structure WritesOnly (written : List RegNum) (s t : State) : Prop where
  completed : CompletedOk s t
  data : DataKeptBut written s t
  onCurve : t.status.onCurve = s.status.onCurve
  cfgLocked : t.status.cfgLocked = s.status.cfgLocked

/-- The two registers a PT destination writes (30_encoding.md R112). -/
def pairRegs (r : RegNum) : List RegNum := [regX (pairOf r), regY (pairOf r)]

/-- The curve equation for integers, y² ≡ x³ + a·x + b (mod p) (41_curve.md R170). -/
def Curve.Holds (c : Curve) (x y : Int) : Prop :=
  y ^ 2 ≡ x ^ 3 + c.a * x + c.b [ZMOD c.p]

/-- The base offset of a 256-bit register in the window (20_memory.md R72). -/
def DataReg.base : DataReg → Nat
  | .w i => 0x200 + 0x20 * i.val
  | .modulus => 0x400
  | .curveP => 0x420
  | .curveA => 0x440
  | .curveB => 0x460

/-- The offset of word k of a 256-bit register, B + 4·k (20_memory.md R73). -/
def DataReg.offset (r : DataReg) (k : Fin 8) : Offset := BitVec.ofNat 12 (r.base + 4 * k.val)

/-- The offset of word w of BUF, 0x100 + 4·w (20_memory.md R74). -/
def bufOffset (w : Fin 17) : Offset := BitVec.ofNat 12 (0x100 + 4 * w.val)

/-- Two offsets that name the same word: they agree in bits 11:2 (20_memory.md R71). -/
def SameWord (off off' : Offset) : Prop := off.extractLsb' 2 10 = off'.extractLsb' 2 10

/-- Two points are the same modulo p in their x (41_curve.md R171, R172). -/
def Curve.SameX (c : Curve) (P Q : Point) : Prop := P.1 % c.p = Q.1 % c.p

/-- Two points are the same modulo p in their y (41_curve.md R171, R172). -/
def Curve.SameY (c : Curve) (P Q : Point) : Prop := P.2 % c.p = Q.2 % c.p

/-- R is the sum of P and Q by a line of slope m through them: the last three lines of
41_curve.md R172, as congruences, R canonical. -/
structure IsSum (c : Curve) (P Q : Point) (m : Int) (R : Point) : Prop where
  xLt : R.1 < c.p
  yLt : R.2 < c.p
  x : (R.1 : Int) ≡ m ^ 2 - P.1 - Q.1 [ZMOD c.p]
  y : (R.2 : Int) ≡ m * ((P.1 : Int) - R.1) - P.2 [ZMOD c.p]

/-- The pair PT(r >> 1) of a state, as naturals (10_state.md R31). -/
def State.pair (s : State) (r : RegNum) : Point :=
  ((s.data.w[regX (pairOf r)]).toNat, (s.data.w[regY (pairOf r)]).toNat)

/-- Round k of LSB-first double-and-add by n (42_scalar.md R200), of the addends D and the accumulators A: the
addend doubles; a set bit assigns the addend to an accumulator that is NONE or folds it in. -/
def Round (c : Curve) (n : Nat) (D : Nat → Point) (A : Nat → Option Point) (k : Nat) : Prop :=
  groupAdd c (D k) (D k) = .ok (D (k + 1)) ∧
  (n.testBit k = false → A (k + 1) = A k) ∧
  (n.testBit k = true → A k = none → A (k + 1) = some (D k)) ∧
  (n.testBit k = true → ∀ a, A k = some a →
    ∃ r, groupAdd c a (D k) = .ok r ∧ A (k + 1) = some r)

/-- R is what LSB-first double-and-add of P by n gives (42_scalar.md R200): D k is the addend and A k the
accumulator before round k, NONE until the first set bit, every addition one that is defined. -/
def DoubleAndAdd (c : Curve) (P : Point) (n : Nat) (R : Point) : Prop :=
  ∃ (D : Nat → Point) (A : Nat → Option Point),
    D 0 = (P.1 % c.p, P.2 % c.p) ∧ A 0 = none ∧ A n.size = some R ∧ ∀ k, k < n.size → Round c n D A k

/-- LSB-first double-and-add of P by n ends with the error e (42_scalar.md R200): after some rounds a fold
reports it, or, the fold being defined, the doubling that follows. -/
def DoubleAndAddFails (c : Curve) (P : Point) (n : Nat) (e : Err) : Prop :=
  ∃ (k : Nat) (D : Nat → Point) (A : Nat → Option Point),
    k < n.size ∧ D 0 = (P.1 % c.p, P.2 % c.p) ∧ A 0 = none ∧ (∀ j, j < k → Round c n D A j) ∧
    ((n.testBit k = true ∧ ∃ a, A k = some a ∧ groupAdd c a (D k) = .error e) ∨
     ((n.testBit k = true → ∀ a, A k = some a → ∃ r, groupAdd c a (D k) = .ok r) ∧
      groupAdd c (D k) (D k) = .error e))

/-- The words of a row of the opcode map decode to its command, operands in the fields of 30_encoding.md R111. -/
def EncodedAs (value mask : Word32) (i : Word32 → Instr) : Prop :=
  ∀ w : Word32, w &&& mask = value → decode w = some (i w)

/-- The natural whose big-endian digits are BUF[lo] .. BUF[lo + n - 1] (00_scope.md R13). -/
def bigEndian (buf : Vector Byte 65) (lo n : Nat) : Nat :=
  ∑ i ∈ Finset.range n, (buf[lo + i]?.getD 0#8).toNat * 256 ^ (n - 1 - i)

/-- Byte i of be32(v), the most significant first (00_scope.md R13). -/
def be32Byte (v i : Nat) : Byte := BitVec.ofNat 8 (v / 256 ^ (31 - i))

/-- The W registers a command may write (30_encoding.md R115). -/
def destinations : Instr → List RegNum
  | .mred _ rd _ => [rd]
  | .madd _ rd _ _ => [rd]
  | .msub _ rd _ _ => [rd]
  | .mmul _ rd _ _ => [rd]
  | .minv _ rd _ => [rd]
  | .pchk _ => []
  | .pneg rd _ => pairRegs rd
  | .padd rd _ _ => pairRegs rd
  | .pdbl rd _ => pairRegs rd
  | .pmul rd _ _ => pairRegs rd
  | .pser _ _ => []
  | .ppar rd => pairRegs rd
  | .cfg => []

/-- The window words a command may change: STATUS, the words of its destination registers, and for PSER
those of BUF and BUF_LEN (20_memory.md R72, 43_codec.md R222). -/
def MayChange (i : Instr) (off : Offset) : Prop :=
  SameWord off 0x008#12 ∨
  (∃ r ∈ destinations i, ∃ k : Fin 8, SameWord off ((DataReg.w r).offset k)) ∨
  (∃ c rs, i = .pser c rs ∧ (SameWord off 0x010#12 ∨ ∃ w : Fin 17, SameWord off (bufOffset w)))

/-- The error conditions a decoded command can report (60_exceptions.md R268, ILLEGAL aside). -/
def reportable : Instr → List Err
  | .mred _ _ _ => [.modulus]
  | .madd _ _ _ _ => [.modulus]
  | .msub _ _ _ _ => [.modulus]
  | .mmul _ _ _ _ => [.modulus]
  | .minv _ _ _ => [.modulus, .domain, .notInvertible, .assertion]
  | .pchk _ => [.config]
  | .pneg _ _ => [.config, .invalidPoint]
  | .padd _ _ _ => [.config, .invalidPoint, .undefinedResult, .domain, .notInvertible]
  | .pdbl _ _ => [.config, .invalidPoint, .domain, .notInvertible]
  | .pmul _ _ _ => [.config, .invalidPoint, .domain, .undefinedResult, .notInvertible]
  | .pser _ _ => []
  | .ppar _ => [.config, .encoding, .unsupported]
  | .cfg => [.config, .modulus]

/-- The illegal words as 30_encoding.md R117 lists them, by the bit positions of R111: an opcode not in the
map, a reserved bit, f in a command without f, an unused field not 0, an odd PT field. -/
def IllegalWord (w : Word32) : Prop :=
  let op := (w.extractLsb' 0 8).toNat
  op ∉ [0x01, 0x02, 0x03, 0x04, 0x05, 0x10, 0x11, 0x12, 0x13, 0x14, 0x20, 0x21, 0x30] ∨
  w.extractLsb' 21 11 ≠ 0#11 ∨
  (w.getLsbD 20 = true ∧ op ∈ [0x10, 0x11, 0x12, 0x13, 0x14, 0x21, 0x30]) ∨
  (w.extractLsb' 8 4 ≠ 0#4 ∧ op ∈ [0x10, 0x20, 0x30]) ∨
  (w.extractLsb' 12 4 ≠ 0#4 ∧ op ∈ [0x21, 0x30]) ∨
  (w.extractLsb' 16 4 ≠ 0#4 ∧ op ∈ [0x01, 0x05, 0x10, 0x11, 0x13, 0x20, 0x21, 0x30]) ∨
  (w.getLsbD 8 = true ∧ op ∈ [0x11, 0x12, 0x13, 0x14, 0x21]) ∨
  (w.getLsbD 12 = true ∧ op ∈ [0x10, 0x11, 0x12, 0x13, 0x14, 0x20]) ∨
  (w.getLsbD 16 = true ∧ op ∈ [0x12])

/-- The engine's state of t is that of s: everything but the script and the replies, which are the
model's own (log entries 1 and 4). -/
structure SameEngine (s t : State) : Prop where
  data : t.data = s.data
  ctrl : t.ctrl = s.ctrl
  status : t.status = s.status
  cmd : t.cmd = s.cmd
  latch : t.latch = s.latch

end Sys2Proof.Machine
end

