-- ==== Sys2Proof/Certificates/Slice0/Obligations.lean ====
section
/-! DEFINITION. The statements about the model for the provers, from the numbered rules of spec/. A command's
operands are those of LATCH, `s.operands`; `p` is the modulus it selects. A statement about exec holds for
every state s, with the operands' conditions as its only premises. -/

open Sys2Proof Sys2Proof.Machine

/-! ### Reset -/

/-- 10_state.md R50: the reset value of every piece of state. -/
def Obligations.ResetValues : Prop :=
  (∀ r : RegNum, State.reset.data.w[r] = 0#256) ∧
  State.reset.data.modulus = 0#256 ∧ State.reset.data.curveP = 0#256 ∧
  State.reset.data.curveA = 0#256 ∧ State.reset.data.curveB = 0#256 ∧
  (∀ (k : Nat) (h : k < 65), State.reset.data.buf[k] = 0x00#8) ∧
  State.reset.data.bufLen = 0#7 ∧
  hostRead 0x000#12 State.reset = 0x45430007#32 ∧
  State.reset.ctrl.doneIe = false ∧ State.reset.ctrl.strictSqrt = false ∧
  State.reset.busy = false ∧ State.reset.status.done = false ∧
  State.reset.status.onCurve = false ∧ State.reset.status.cfgLocked = false ∧
  State.reset.status.wign = false ∧ State.reset.status.cmdOvr = false ∧
  State.reset.status.err = 0#4 ∧ State.reset.statusWord = 0#32 ∧ State.reset.ctrlWord = 0#32 ∧
  State.reset.cmd = 0#32 ∧ State.reset.latch = none ∧ State.reset.irq = false

/-- 70_reset_and_hazards.md R290: a reset step, idle or busy, abandons the command in flight and gives every
piece of the engine's state its reset value, irq low; and no other step clears CFG_LOCKED or changes a
locked curve. (That a reset is an entry of the script is the model's form, log entry 1.) -/
def Obligations.ResetStepAndLock : Prop :=
  (∀ (s : State) (rest : List Event), s.script = .reset :: rest →
    ∃ t, step s = .next t ∧ SameEngine State.reset t ∧ t.irq = false) ∧
  (∀ s t : State, step s = .next t → s.status.cfgLocked = true →
    (∃ rest, s.script = .reset :: rest) ∨
    (t.status.cfgLocked = true ∧ t.data.curveP = s.data.curveP ∧ t.data.curveA = s.data.curveA ∧
      t.data.curveB = s.data.curveB))

/-- The invariant holds at reset. -/
def Obligations.ResetMeetsInvariant : Prop := State.reset.Inv

/-- Every step keeps the invariant: LATCH equals the registers during a BUSY period, DONE and BUSY are never
both 1, a locked curve has p ≥ 1, ERR holds no reserved code, ONCURVE needs the lock. -/
def Obligations.StepKeepsInvariant : Prop :=
  ∀ s t : State, s.Inv → step s = .next t → t.Inv

/-! ### Encoding -/

/-- Decoding the encoding of a well-formed command gives it back, for every command and every operand. -/
def Obligations.DecodeEncode : Prop :=
  ∀ i : Instr, i.wf = true → decode (encode i) = some i

/-- Every word that decodes is the encoding of a well-formed command, so no two words mean the same. -/
def Obligations.EncodeDecode : Prop :=
  ∀ (w : Word32) (i : Instr), decode w = some i → i.wf = true ∧ encode i = w

/-- 30_encoding.md R117: exactly the listed words are illegal; an illegal word is still issued, and its
completion reports ILLEGAL (6) and changes nothing but the STATUS fields and the CMD readback. (The two
steps stand in the script, log entry 1.) -/
def Obligations.IllegalWords : Prop :=
  (∀ w : Word32, decode w = none ↔ IllegalWord w) ∧
  (∀ (s : State) (off : Offset) (w : Word32) (rest : List Event),
    s.busy = false → SameWord off 0x00C#12 → IllegalWord w →
    s.script = .hostWrite off w :: .complete :: rest →
    ∃ t u, step s = .next t ∧ t.busy = true ∧ step t = .next u ∧
      u.data = s.data ∧ u.ctrl = s.ctrl ∧ u.cmd = w ∧ u.busy = false ∧
      u.status = { s.status with done := true, err := 6#4 })

/-- 30_encoding.md R115, R116: the opcode map has its 13 rows; a word that matches a row's mask is that row's
command, its operands in the fields of R111, one that matches no row does not decode, and no word matches
two rows. -/
def Obligations.OpcodeMap : Prop :=
  opcodeTable.map (fun r => (r.name, r.value, r.mask)) =
    [(.MRED, 0x00000001#32, 0xFFEF00FF#32), (.MADD, 0x00000002#32, 0xFFE000FF#32),
     (.MSUB, 0x00000003#32, 0xFFE000FF#32), (.MMUL, 0x00000004#32, 0xFFE000FF#32),
     (.MINV, 0x00000005#32, 0xFFEF00FF#32), (.PCHK, 0x00000010#32, 0xFFFF1FFF#32),
     (.PNEG, 0x00000011#32, 0xFFFF11FF#32), (.PADD, 0x00000012#32, 0xFFF111FF#32),
     (.PDBL, 0x00000013#32, 0xFFFF11FF#32), (.PMUL, 0x00000014#32, 0xFFF011FF#32),
     (.PSER, 0x00000020#32, 0xFFEF1FFF#32), (.PPAR, 0x00000021#32, 0xFFFFF1FF#32),
     (.CFG, 0x00000030#32, 0xFFFFFFFF#32)] ∧
  (∀ r ∈ opcodeTable, EncodedAs r.value r.mask (instrOf r.name)) ∧
  (∀ w : Word32, decode w = none ↔ ∀ r ∈ opcodeTable, w &&& r.mask ≠ r.value) ∧
  (∀ (w : Word32) (r r' : OpcodeRow), r ∈ opcodeTable → r' ∈ opcodeTable →
    w &&& r.mask = r.value → w &&& r'.mask = r'.value → r = r')

/-- 30_encoding.md R120: the encoding examples. -/
def Obligations.EncodingExamples : Prop :=
  decode 0x00121304#32 = some (.mmul .curveP 3 1 2) ∧
  decode 0x00021304#32 = some (.mmul .mod 3 1 2) ∧
  decode 0x00004505#32 = some (.minv .mod 5 4) ∧
  decode 0x00000010#32 = some (.pchk 0) ∧
  decode 0x00020412#32 = some (.padd 4 0 2) ∧
  decode 0x00000213#32 = some (.pdbl 2 0) ∧
  decode 0x00090614#32 = some (.pmul 6 0 9) ∧
  decode 0x00106020#32 = some (.pser .compressed 6) ∧
  decode 0x00000821#32 = some (.ppar 8) ∧
  decode 0x00000030#32 = some .cfg ∧
  decode 0x00021412#32 = none

/-! ### Steps, issue and completion -/

/-- An engine step is exec of the command that the latched word decodes to: where a completion is the next
scripted step, where nothing is scripted (log entry 2), and after withFetchWord (log entry 9). -/
def Obligations.StepRunsDecoded : Prop :=
  (∀ (s : State) (l : Latch) (i : Instr) (rest : List Event), s.latch = some l →
    decode l.word = some i → s.script = .complete :: rest →
    step s = exec i { s with script := rest }) ∧
  (∀ (s : State) (l : Latch) (i : Instr), s.latch = some l → decode l.word = some i →
    s.script = [] → step s = exec i s) ∧
  (∀ (s : State) (nbits w : Nat) (i : Instr), decodeTableWord nbits w = some i →
    step (s.withFetchWord nbits w) = exec i (issue (tableWord nbits w) s))

/-- 60_exceptions.md R261: a write to CMD while BUSY = 0 takes the snapshot, writes the readback, sets BUSY,
clears DONE (irq falls) and changes nothing else; every word is issued. (The write is the next step of the
script, log entry 1.) -/
def Obligations.IssueTakesSnapshot : Prop :=
  ∀ (s : State) (off : Offset) (w : Word32) (rest : List Event),
    s.busy = false → SameWord off 0x00C#12 → s.script = .hostWrite off w :: rest →
    ∃ t, step s = .next t ∧
      t.latch = some { word := w, data := s.data, cfgLocked := s.status.cfgLocked,
                       strictSqrt := s.ctrl.strictSqrt } ∧
      t.cmd = w ∧ t.busy = true ∧ t.status = { s.status with done := false } ∧ t.irq = false ∧
      t.data = s.data ∧ t.ctrl = s.ctrl

/-- What a command reads after its issue: W registers, point pairs, the selected modulus, the curve and the
buffer as they stood then (60_exceptions.md R262, 30_encoding.md R112, 40_modular.md R141). -/
def Obligations.OperandsAtIssue : Prop :=
  ∀ (s : State) (w : Word32),
    (∀ r : RegNum, (issue w s).operands.reg r = (s.data.w[r]).toNat) ∧
    (∀ (r : RegNum) (j : Nat) (_ : r.val / 2 = j) (h : 2 * j + 1 < 16),
      (issue w s).operands.point r = ((s.data.w[2 * j]).toNat, (s.data.w[2 * j + 1]).toNat)) ∧
    (issue w s).operands.selected .mod = s.data.modulus.toNat ∧
    (issue w s).operands.selected .curveP = s.data.curveP.toNat ∧
    (issue w s).operands.curve = ⟨s.data.curveP.toNat, s.data.curveA.toNat, s.data.curveB.toNat⟩ ∧
    (issue w s).operands.data.buf = s.data.buf ∧ (issue w s).operands.data.bufLen = s.data.bufLen ∧
    (issue w s).operands.cfgLocked = s.status.cfgLocked ∧
    (issue w s).operands.strictSqrt = s.ctrl.strictSqrt

/-- 60_exceptions.md R266 (with the completion of R263): a completion ends the BUSY period and sets DONE; one
with an error writes no W register, no BUF byte, no BUF_LEN, no ONCURVE and no CFG_LOCKED. (The completion
is the next step of the script, log entry 1.) -/
def Obligations.NoPartialResult : Prop :=
  ∀ (s : State) (l : Latch) (rest : List Event), s.latch = some l → s.script = .complete :: rest →
    ∃ t, step s = .next t ∧ t.busy = false ∧ t.status.done = true ∧ t.cmd = s.cmd ∧ t.ctrl = s.ctrl ∧
      (t.status.err ≠ 0#4 →
        t.data = s.data ∧ t.status = { s.status with done := true, err := t.status.err })

/-- A step stops only where the script asks for a completion that R260 does not enable (the model's fault,
log entry 3), and no step refuses. -/
def Obligations.OnlyDisabledCompletionStops : Prop :=
  (∀ (s : State) (r : Refusal), step s ≠ .refused r) ∧
  (∀ (s : State) (f : Fault), step s = .fault f ↔
    (f = .completionWhileIdle ∧ s.busy = false ∧ ∃ rest, s.script = .complete :: rest))

/-- 60_exceptions.md R264: a command completes. From any state, once the host and the reset input have made
the accesses and resets of a script that names no completion, the next step leaves no command in flight
(the unscripted step is the model's fairness, log entry 2). -/
def Obligations.EveryCommandCompletes : Prop :=
  ∀ s : State, (∀ e ∈ s.script, e ≠ .complete) →
    ∃ t : State, Host.Core.run Sys2Proof.core (s.script.length + 1) s = .next t ∧
      t.busy = false ∧ t.script = []

/-- 60_exceptions.md R263: the outcome of a command is a function of LATCH. Two states with one latch end with
the same ERR, and every register, BUF, ONCURVE and CFG_LOCKED is written alike in both or left in both. -/
def Obligations.OutcomeDependsOnLatchOnly : Prop :=
  ∀ (i : Instr) (s s' t t' : State) (l : Latch), s.latch = some l → s'.latch = some l →
    exec i s = .next t → exec i s' = .next t' →
    t.status.err = t'.status.err ∧
    (∀ r : RegNum, t.data.w[r] = t'.data.w[r] ∨
      (t.data.w[r] = s.data.w[r] ∧ t'.data.w[r] = s'.data.w[r])) ∧
    ((t.data.buf = t'.data.buf ∧ t.data.bufLen = t'.data.bufLen) ∨
      (t.data.buf = s.data.buf ∧ t.data.bufLen = s.data.bufLen ∧
        t'.data.buf = s'.data.buf ∧ t'.data.bufLen = s'.data.bufLen)) ∧
    (t.status.onCurve = t'.status.onCurve ∨
      (t.status.onCurve = s.status.onCurve ∧ t'.status.onCurve = s'.status.onCurve)) ∧
    (t.status.cfgLocked = t'.status.cfgLocked ∨
      (t.status.cfgLocked = s.status.cfgLocked ∧ t'.status.cfgLocked = s'.status.cfgLocked))

/-- STRICT_SQRT is taken at issue (43_codec.md R226, 70_reset_and_hazards.md R300): a write to CTRL during the
BUSY period changes neither the data nor the status the completion leaves. (Both steps stand in the script,
log entry 1.) -/
def Obligations.StrictSqrtTakenAtIssue : Prop :=
  ∀ (s s' : State) (l : Latch) (off : Offset) (v : Word32) (rest : List Event),
    s.latch = some l → SameWord off 0x004#12 →
    s.script = .hostWrite off v :: .complete :: rest → s' = { s with script := .complete :: rest } →
    ∃ a b c, step s = .next a ∧ step a = .next b ∧ step s' = .next c ∧
      b.data = c.data ∧ b.status = c.status ∧ b.cmd = c.cmd ∧
      a.ctrl.strictSqrt = v.getLsbD 1 ∧ a.ctrl.doneIe = v.getLsbD 0

/-- 60_exceptions.md R268: a decoded command reports success or one of the codes listed for it. The premise is
the invariant's: a latched lock comes with p ≥ 1. -/
def Obligations.CodesOfCommands : Prop :=
  ∀ (i : Instr) (s t : State),
    (s.operands.cfgLocked = true → s.operands.curve.p ≠ 0) → exec i s = .next t →
    t.status.err = 0#4 ∨ ∃ e ∈ reportable i, t.status.err = e.code

/-- 10_state.md R42: while CFG_LOCKED = 0 the commands that need the curve complete with CONFIG (7). -/
def Obligations.UnlockedIsConfig : Prop :=
  ∀ (s : State) (rd rs rt : RegNum), s.operands.cfgLocked = false →
    exec (.pchk rs) s = .next (completedWith 7#4 s) ∧
    exec (.pneg rd rs) s = .next (completedWith 7#4 s) ∧
    exec (.padd rd rs rt) s = .next (completedWith 7#4 s) ∧
    exec (.pdbl rd rs) s = .next (completedWith 7#4 s) ∧
    exec (.pmul rd rs rt) s = .next (completedWith 7#4 s) ∧
    exec (.ppar rd) s = .next (completedWith 7#4 s)

/-- The frame of every command, through the host's window: a word that is not STATUS, not of a destination
register and, for PSER, not of BUF or BUF_LEN, reads after the command as it read before. -/
def Obligations.WindowFrame : Prop :=
  ∀ (i : Instr) (s t : State) (off : Offset), exec i s = .next t → ¬MayChange i off →
    hostRead off t = hostRead off s

/-! ### Flags over whole runs -/

/-- ONCURVE changes only at reset or at the completion without error of a PCHK (10_state.md R41). (A reset is
a step of the script, log entry 1.) -/
def Obligations.OnCurveChangedByPchkOnly : Prop :=
  ∀ s t : State, step s = .next t → t.status.onCurve ≠ s.status.onCurve →
    (∃ rest, s.script = .reset :: rest) ∨
    (∃ l rs, s.latch = some l ∧ decode l.word = some (.pchk rs) ∧ t.status.err = 0#4 ∧ t.busy = false)

/-- WIGN and CMD_OVR are sticky: only the host's write of a 1 to their bit of STATUS, or reset, clears them
(10_state.md R38, R43, R44). (Both are steps of the script, log entry 1.) -/
def Obligations.StickyFlags : Prop :=
  ∀ s t : State, step s = .next t →
    (s.status.wign = true → t.status.wign = false →
      (∃ rest, s.script = .reset :: rest) ∨
      (∃ off v rest, s.script = .hostWrite off v :: rest ∧ SameWord off 0x008#12 ∧ v.getLsbD 4 = true)) ∧
    (s.status.cmdOvr = true → t.status.cmdOvr = false →
      (∃ rest, s.script = .reset :: rest) ∨
      (∃ off v rest, s.script = .hostWrite off v :: rest ∧ SameWord off 0x008#12 ∧ v.getLsbD 5 = true))

/-- 60_exceptions.md R271: irq is STATUS.DONE & CTRL.DONE_IE; DONE rises only at a completion; irq is lowered by
W1C of DONE, by an issue, by reset, and by clearing DONE_IE, which leaves DONE. -/
def Obligations.IrqFollowsDone : Prop :=
  (∀ s : State, s.irq = true ↔
    ((hostRead 0x008#12 s).getLsbD 1 = true ∧ (hostRead 0x004#12 s).getLsbD 0 = true)) ∧
  (∀ s t : State, step s = .next t → s.status.done = false → t.status.done = true →
    s.busy = true ∧ t.busy = false) ∧
  (∀ (s : State) (v : Word32), v.getLsbD 1 = true → (hostWrite 0x008#12 v s).irq = false) ∧
  (∀ (s : State) (v : Word32), s.busy = false → (hostWrite 0x00C#12 v s).irq = false) ∧
  (∀ (s : State) (v : Word32), v.getLsbD 0 = false →
    (hostWrite 0x004#12 v s).irq = false ∧ (hostWrite 0x004#12 v s).status.done = s.status.done) ∧
  (∀ s : State, (resetEngine s).irq = false)

/-! ### The host's window -/

/-- 20_memory.md R77: reads have no side effect; two in a row answer the same word. (That the answers go to
`replies` is the model's form, log entry 4.) -/
def Obligations.ReadsHaveNoSideEffect : Prop :=
  ∀ (s : State) (off : Offset) (rest : List Event),
    s.script = .hostRead off :: .hostRead off :: rest →
    ∃ t u v, step s = .next t ∧ step t = .next u ∧ SameEngine s t ∧ SameEngine s u ∧
      u.replies = v :: v :: s.replies ∧ v = hostRead off s

/-- Offset bits 1:0 are ignored: two offsets of one word read and write alike (20_memory.md R71). -/
def Obligations.OffsetLowBitsIgnored : Prop :=
  ∀ (s : State) (off off' : Offset) (v : Word32), (∀ b, 2 ≤ b → off.getLsbD b = off'.getLsbD b) →
    hostRead off s = hostRead off' s ∧ hostWrite off v s = hostWrite off' v s

/-- 20_memory.md R73 (and the map of R72): word k of a 256-bit register at base B is at B + 4·k and is its bits
32k+31..32k; an accepted write replaces that word and nothing else in the window. -/
def Obligations.RegisterWords : Prop :=
  (∀ (s : State) (r : DataReg) (k : Fin 8),
    (hostRead (r.offset k) s).toNat = (s.data.get r).toNat / 2 ^ (32 * k.val) % 2 ^ 32) ∧
  (∀ (s : State) (r : DataReg) (k : Fin 8) (v : Word32), s.busy = false →
    (r.isCurve = true → s.status.cfgLocked = false) →
    hostRead (r.offset k) (hostWrite (r.offset k) v s) = v ∧
    (hostWrite (r.offset k) v s).status = s.status ∧
    (∀ off, ¬SameWord off (r.offset k) →
      hostRead off (hostWrite (r.offset k) v s) = hostRead off s))

/-- 20_memory.md R74: byte BUF[4w+i] is bits 8i+7..8i of the word at 0x100 + 4·w; bits 31:8 of word 16 read 0;
an accepted write replaces the bytes of its word and nothing else in the window. -/
def Obligations.BufferWords : Prop :=
  (∀ (s : State) (w : Fin 17) (i : Fin 4) (h : 4 * w.val + i.val < 65),
    (hostRead (bufOffset w) s).extractLsb' (8 * i.val) 8 = s.data.buf[4 * w.val + i.val]) ∧
  (∀ s : State, (hostRead (bufOffset 16) s).extractLsb' 8 24 = 0#24) ∧
  (∀ (s : State) (w : Fin 17) (v : Word32), s.busy = false →
    (∀ (i : Fin 4) (h : 4 * w.val + i.val < 65),
      (hostWrite (bufOffset w) v s).data.buf[4 * w.val + i.val] = v.extractLsb' (8 * i.val) 8) ∧
    (∀ (k : Nat) (h : k < 65), k / 4 ≠ w.val →
      (hostWrite (bufOffset w) v s).data.buf[k] = s.data.buf[k]) ∧
    (∀ off, ¬SameWord off (bufOffset w) →
      hostRead off (hostWrite (bufOffset w) v s) = hostRead off s))

/-- 20_memory.md R75: a write to 0x010 stores wdata[6:0], a read returns 25 zero bits and BUF_LEN. -/
def Obligations.BufLenWord : Prop :=
  (∀ s : State, (hostRead 0x010#12 s).toNat = s.data.bufLen.toNat) ∧
  (∀ (s : State) (v : Word32), s.busy = false →
    (hostWrite 0x010#12 v s).data.bufLen = v.extractLsb' 0 7 ∧
    ∀ off, ¬SameWord off 0x010#12 → hostRead off (hostWrite 0x010#12 v s) = hostRead off s)

/-- 20_memory.md R76: a reserved offset reads 0 and ignores writes, without a flag; so do the reserved bits of
CTRL, STATUS and BUF_LEN. -/
def Obligations.ReservedReadsZero : Prop :=
  (∀ (s : State) (off : Offset) (v : Word32),
    (0x014 ≤ off.toNat ∧ off.toNat < 0x100) ∨ (0x144 ≤ off.toNat ∧ off.toNat < 0x200) ∨
      0x480 ≤ off.toNat →
    hostRead off s = 0#32 ∧ hostWrite off v s = s) ∧
  (∀ s : State, (hostRead 0x004#12 s).extractLsb' 2 30 = 0#30 ∧
    (hostRead 0x008#12 s).extractLsb' 6 2 = 0#2 ∧ (hostRead 0x008#12 s).extractLsb' 12 20 = 0#20 ∧
    (hostRead 0x010#12 s).extractLsb' 7 25 = 0#25) ∧
  (∀ (s : State) (v v' : Word32),
    (v.extractLsb' 0 2 = v'.extractLsb' 0 2 → hostWrite 0x004#12 v s = hostWrite 0x004#12 v' s) ∧
    (v.getLsbD 1 = v'.getLsbD 1 → v.getLsbD 4 = v'.getLsbD 4 → v.getLsbD 5 = v'.getLsbD 5 →
      hostWrite 0x008#12 v s = hostWrite 0x008#12 v' s) ∧
    (v.extractLsb' 0 7 = v'.extractLsb' 0 7 → hostWrite 0x010#12 v s = hostWrite 0x010#12 v' s))

/-- 20_memory.md R79: during a BUSY period a write to the data registers, BUF or BUF_LEN is dropped and sets
WIGN, one to CMD is dropped and sets CMD_OVR, CTRL and STATUS work as usual, ID ignores its write. -/
def Obligations.BusyWrites : Prop :=
  ∀ (s : State) (v : Word32), s.busy = true →
    (∀ (r : DataReg) (k : Fin 8),
      hostWrite (r.offset k) v s = { s with status := { s.status with wign := true } }) ∧
    (∀ w : Fin 17, hostWrite (bufOffset w) v s = { s with status := { s.status with wign := true } }) ∧
    hostWrite 0x010#12 v s = { s with status := { s.status with wign := true } } ∧
    hostWrite 0x00C#12 v s = { s with status := { s.status with cmdOvr := true } } ∧
    hostWrite 0x004#12 v s =
      { s with ctrl := { doneIe := v.getLsbD 0, strictSqrt := v.getLsbD 1 } } ∧
    hostWrite 0x008#12 v s =
      { s with
        status := { s.status with
                    done := s.status.done && !v.getLsbD 1
                    wign := s.status.wign && !v.getLsbD 4
                    cmdOvr := s.status.cmdOvr && !v.getLsbD 5 } } ∧
    hostWrite 0x000#12 v s = s ∧
    (∀ off : Offset, (0x014 ≤ off.toNat ∧ off.toNat < 0x100) ∨
      (0x144 ≤ off.toNat ∧ off.toNat < 0x200) ∨ 0x480 ≤ off.toNat → hostWrite off v s = s)

/-- 20_memory.md R80: while CFG_LOCKED = 1 a write to a word of CURVE_P, CURVE_A or CURVE_B is dropped and sets
WIGN, busy or not. -/
def Obligations.LockedWritesIgnored : Prop :=
  ∀ (s : State) (v : Word32) (k : Fin 8), s.status.cfgLocked = true →
    hostWrite (DataReg.curveP.offset k) v s = { s with status := { s.status with wign := true } } ∧
    hostWrite (DataReg.curveA.offset k) v s = { s with status := { s.status with wign := true } } ∧
    hostWrite (DataReg.curveB.offset k) v s = { s with status := { s.status with wign := true } }

/-- STATUS by bits, read and written (10_state.md R38): RW1C for DONE, WIGN and CMD_OVR, nothing else changes;
CTRL by bits (10_state.md R37). -/
def Obligations.StatusAndCtrlBits : Prop :=
  ∀ (s : State) (v : Word32),
    (hostRead 0x008#12 s).getLsbD 0 = s.busy ∧
    (hostRead 0x008#12 s).getLsbD 1 = s.status.done ∧
    (hostRead 0x008#12 s).getLsbD 2 = s.status.onCurve ∧
    (hostRead 0x008#12 s).getLsbD 3 = s.status.cfgLocked ∧
    (hostRead 0x008#12 s).getLsbD 4 = s.status.wign ∧
    (hostRead 0x008#12 s).getLsbD 5 = s.status.cmdOvr ∧
    (hostRead 0x008#12 s).extractLsb' 8 4 = s.status.err ∧
    hostRead 0x008#12 (hostWrite 0x008#12 v s) = hostRead 0x008#12 s &&& ~~~(v &&& 0x32#32) ∧
    (∀ off, ¬SameWord off 0x008#12 → hostRead off (hostWrite 0x008#12 v s) = hostRead off s) ∧
    hostRead 0x004#12 (hostWrite 0x004#12 v s) = v &&& 0x3#32 ∧
    (∀ off, ¬SameWord off 0x004#12 → hostRead off (hostWrite 0x004#12 v s) = hostRead off s)

/-! ### Modular commands -/

/-- 40_modular.md R145: the words of MRED; MRED writes W[rs] mod p, or reports MODULUS (8) when p = 0. -/
def Obligations.MredResult : Prop :=
  EncodedAs 0x00000001#32 0xFFEF00FF#32 (fun w => .mred (modSelOf (fieldF w)) (fieldRd w) (fieldRs w)) ∧
  (∀ (s : State) (ms : ModSel) (rd rs : RegNum),
    (s.operands.selected ms = 0 → exec (.mred ms rd rs) s = .next (completedWith 8#4 s)) ∧
    (s.operands.selected ms ≠ 0 →
      ∃ t, exec (.mred ms rd rs) s = .next t ∧ WritesOnly [rd] s t ∧
        (t.data.w[rd]).toNat = s.operands.reg rs % s.operands.selected ms))

/-- 40_modular.md R146: the words of MADD; MADD writes the exact sum reduced, or reports MODULUS (8) when p = 0. -/
def Obligations.MaddResult : Prop :=
  EncodedAs 0x00000002#32 0xFFE000FF#32
    (fun w => .madd (modSelOf (fieldF w)) (fieldRd w) (fieldRs w) (fieldRt w)) ∧
  (∀ (s : State) (ms : ModSel) (rd rs rt : RegNum),
    (s.operands.selected ms = 0 → exec (.madd ms rd rs rt) s = .next (completedWith 8#4 s)) ∧
    (s.operands.selected ms ≠ 0 →
      ∃ t, exec (.madd ms rd rs rt) s = .next t ∧ WritesOnly [rd] s t ∧
        (t.data.w[rd]).toNat = (s.operands.reg rs + s.operands.reg rt) % s.operands.selected ms))

/-- 40_modular.md R147: the words of MSUB; MSUB writes the residue d < p with d + W[rt] ≡ W[rs] (mod p), or
reports MODULUS (8) when p = 0. -/
def Obligations.MsubResult : Prop :=
  EncodedAs 0x00000003#32 0xFFE000FF#32
    (fun w => .msub (modSelOf (fieldF w)) (fieldRd w) (fieldRs w) (fieldRt w)) ∧
  (∀ (s : State) (ms : ModSel) (rd rs rt : RegNum),
    (s.operands.selected ms = 0 → exec (.msub ms rd rs rt) s = .next (completedWith 8#4 s)) ∧
    (s.operands.selected ms ≠ 0 →
      ∃ t, exec (.msub ms rd rs rt) s = .next t ∧ WritesOnly [rd] s t ∧
        (t.data.w[rd]).toNat < s.operands.selected ms ∧
        ((t.data.w[rd]).toNat + s.operands.reg rt) % s.operands.selected ms =
          s.operands.reg rs % s.operands.selected ms))

/-- 40_modular.md R148: the words of MMUL; MMUL writes the ordinary residue of the exact product, or reports
MODULUS (8) when p = 0. -/
def Obligations.MmulResult : Prop :=
  EncodedAs 0x00000004#32 0xFFE000FF#32
    (fun w => .mmul (modSelOf (fieldF w)) (fieldRd w) (fieldRs w) (fieldRt w)) ∧
  (∀ (s : State) (ms : ModSel) (rd rs rt : RegNum),
    (s.operands.selected ms = 0 → exec (.mmul ms rd rs rt) s = .next (completedWith 8#4 s)) ∧
    (s.operands.selected ms ≠ 0 →
      ∃ t, exec (.mmul ms rd rs rt) s = .next t ∧ WritesOnly [rd] s t ∧
        (t.data.w[rd]).toNat = (s.operands.reg rs * s.operands.reg rt) % s.operands.selected ms))

/-- 40_modular.md R149: the words of MINV; MINV writes the inverse m < p with W[rs]·m mod p = 1 where
gcd(W[rs], p) = 1 and p ≥ 2; else MODULUS (8), DOMAIN (1), NOT_INVERTIBLE (2), ASSERTION (5), in this order of
tests. -/
def Obligations.MinvResult : Prop :=
  EncodedAs 0x00000005#32 0xFFEF00FF#32 (fun w => .minv (modSelOf (fieldF w)) (fieldRd w) (fieldRs w)) ∧
  (∀ (s : State) (ms : ModSel) (rd rs : RegNum) (p k : Nat),
    s.operands.selected ms = p → s.operands.reg rs = k →
    (p = 0 → exec (.minv ms rd rs) s = .next (completedWith 8#4 s)) ∧
    (p ≠ 0 → k = 0 → exec (.minv ms rd rs) s = .next (completedWith 1#4 s)) ∧
    (p ≠ 0 → k ≠ 0 → Nat.gcd k p ≠ 1 → exec (.minv ms rd rs) s = .next (completedWith 2#4 s)) ∧
    (p = 1 → k ≠ 0 → exec (.minv ms rd rs) s = .next (completedWith 5#4 s)) ∧
    (1 < p → Nat.gcd k p = 1 →
      ∃ t, exec (.minv ms rd rs) s = .next t ∧ WritesOnly [rd] s t ∧
        (t.data.w[rd]).toNat < p ∧ k * (t.data.w[rd]).toNat % p = 1))

/-! ### Curve commands -/

/-- 41_curve.md R175: the words of PCHK; PCHK writes ONCURVE with the curve equation's truth at the pair,
reports no error, and leaves every register; with the curve unlocked it reports CONFIG (7). -/
def Obligations.PchkResult : Prop :=
  EncodedAs 0x00000010#32 0xFFFF1FFF#32 (fun w => .pchk (fieldRs w)) ∧
  (∀ (s : State) (rs : RegNum),
    (s.operands.cfgLocked = false → exec (.pchk rs) s = .next (completedWith 7#4 s)) ∧
    (s.operands.cfgLocked = true → s.operands.curve.p ≠ 0 →
      ∃ t, exec (.pchk rs) s = .next t ∧ CompletedOk s t ∧ t.data = s.data ∧
        t.status.cfgLocked = s.status.cfgLocked ∧
        (t.status.onCurve = true ↔
          s.operands.curve.Holds (s.operands.point rs).1 (s.operands.point rs).2)))

/-- 41_curve.md R176: the words of PNEG; PNEG of an on-curve point writes (x mod p, y') with y' < p and y + y'
≡ 0; of another point it reports INVALID_POINT (3); with the curve unlocked, CONFIG (7). -/
def Obligations.PnegResult : Prop :=
  EncodedAs 0x00000011#32 0xFFFF11FF#32 (fun w => .pneg (fieldRd w) (fieldRs w)) ∧
  (∀ (s : State) (rd rs : RegNum) (c : Curve) (P : Point),
    s.operands.curve = c → s.operands.point rs = P →
    (s.operands.cfgLocked = false → exec (.pneg rd rs) s = .next (completedWith 7#4 s)) ∧
    (s.operands.cfgLocked = true → c.p ≠ 0 → ¬c.Holds P.1 P.2 →
      exec (.pneg rd rs) s = .next (completedWith 3#4 s)) ∧
    (s.operands.cfgLocked = true → c.p ≠ 0 → c.Holds P.1 P.2 →
      ∃ t, exec (.pneg rd rs) s = .next t ∧ WritesOnly (pairRegs rd) s t ∧
        (t.pair rd).1 = P.1 % c.p ∧ (t.pair rd).2 < c.p ∧ ((t.pair rd).2 + P.2) % c.p = 0))

/-- Two negations give the decoded point back (41_curve.md R179, item 1). -/
def Obligations.NegationIsInvolutive : Prop :=
  ∀ (s : State) (w w' : Word32) (rd rd' rs : RegNum), s.status.cfgLocked = true →
    s.data.curveP ≠ 0#256 →
    (issue w s).operands.curve.Holds (s.pair rs).1 (s.pair rs).2 →
    ∃ t u, exec (.pneg rd rs) (issue w s) = .next t ∧ exec (.pneg rd' rd) (issue w' t) = .next u ∧
      u.status.err = 0#4 ∧
      u.pair rd' = ((s.pair rs).1 % s.data.curveP.toNat, (s.pair rs).2 % s.data.curveP.toNat)

/-- 41_curve.md R172, the addition case, for PADD: distinct x and an invertible difference give the third point
of the chord. The slope m is the one residue with m·(x1 − x2) ≡ y1 − y2, and the postcondition passes. -/
def Obligations.PaddChord : Prop :=
  ∀ (s : State) (rd rs rt : RegNum) (c : Curve) (P Q : Point),
    s.operands.cfgLocked = true → s.operands.curve = c → c.p ≠ 0 →
    s.operands.point rs = P → s.operands.point rt = Q →
    c.Holds P.1 P.2 → c.Holds Q.1 Q.2 → ¬c.SameX P Q → Int.gcd ((P.1 : Int) - Q.1) c.p = 1 →
    ∃ (t : State) (m : Int), exec (.padd rd rs rt) s = .next t ∧ WritesOnly (pairRegs rd) s t ∧
      m * ((P.1 : Int) - Q.1) ≡ (P.2 : Int) - Q.2 [ZMOD c.p] ∧ IsSum c P Q m (t.pair rd)

/-- 41_curve.md R172, the doubling case, for PADD of equal points and for PDBL: the tangent's slope m is the one
residue with m·2·y ≡ 3·x² + a, and the postcondition passes. -/
def Obligations.PaddPdblTangent : Prop :=
  ∀ (s : State) (rd rs rt : RegNum) (c : Curve) (P Q : Point),
    s.operands.cfgLocked = true → s.operands.curve = c → c.p ≠ 0 →
    s.operands.point rs = P → s.operands.point rt = Q →
    c.Holds P.1 P.2 → Int.gcd (2 * (P.2 : Int)) c.p = 1 → P.2 % c.p ≠ 0 →
    (∃ (t : State) (m : Int), exec (.pdbl rd rs) s = .next t ∧ WritesOnly (pairRegs rd) s t ∧
      m * (2 * (P.2 : Int)) ≡ 3 * (P.1 : Int) ^ 2 + c.a [ZMOD c.p] ∧ IsSum c P P m (t.pair rd)) ∧
    (c.SameX P Q → c.SameY P Q →
      ∃ (t : State) (m : Int), exec (.padd rd rs rt) s = .next t ∧ WritesOnly (pairRegs rd) s t ∧
        m * (2 * (P.2 : Int)) ≡ 3 * (P.1 : Int) ^ 2 + c.a [ZMOD c.p] ∧ IsSum c P P m (t.pair rd))

/-- The errors of PADD and PDBL with the curve locked, in test order (41_curve.md R172, R177, R178,
60_exceptions.md R269). -/
def Obligations.AdditionErrors : Prop :=
  ∀ (s : State) (rd rs rt : RegNum) (c : Curve) (P Q : Point),
    s.operands.cfgLocked = true → s.operands.curve = c → c.p ≠ 0 →
    s.operands.point rs = P → s.operands.point rt = Q →
    (¬(c.Holds P.1 P.2 ∧ c.Holds Q.1 Q.2) → exec (.padd rd rs rt) s = .next (completedWith 3#4 s)) ∧
    (c.Holds P.1 P.2 → c.Holds Q.1 Q.2 → c.SameX P Q → ¬c.SameY P Q →
      exec (.padd rd rs rt) s = .next (completedWith 4#4 s)) ∧
    (c.Holds P.1 P.2 → c.SameX P Q → c.SameY P Q → P.2 % c.p = 0 →
      exec (.padd rd rs rt) s = .next (completedWith 1#4 s)) ∧
    (c.Holds P.1 P.2 → c.SameX P Q → c.SameY P Q → P.2 % c.p ≠ 0 → Int.gcd (2 * (P.2 : Int)) c.p ≠ 1 →
      exec (.padd rd rs rt) s = .next (completedWith 2#4 s)) ∧
    (c.Holds P.1 P.2 → c.Holds Q.1 Q.2 → ¬c.SameX P Q → Int.gcd ((P.1 : Int) - Q.1) c.p ≠ 1 →
      exec (.padd rd rs rt) s = .next (completedWith 2#4 s)) ∧
    (¬c.Holds P.1 P.2 → exec (.pdbl rd rs) s = .next (completedWith 3#4 s)) ∧
    (c.Holds P.1 P.2 → P.2 % c.p = 0 → exec (.pdbl rd rs) s = .next (completedWith 1#4 s)) ∧
    (c.Holds P.1 P.2 → P.2 % c.p ≠ 0 → Int.gcd (2 * (P.2 : Int)) c.p ≠ 1 →
      exec (.pdbl rd rs) s = .next (completedWith 2#4 s))

/-- The points that PNEG, PADD, PDBL and PMUL write are canonical and on the curve (41_curve.md R173, R179,
43_codec.md R229). -/
def Obligations.CurveResultsOnCurve : Prop :=
  ∀ (i : Instr) (s t : State) (rd rs rt : RegNum),
    i = .pneg rd rs ∨ i = .padd rd rs rt ∨ i = .pdbl rd rs ∨ i = .pmul rd rs rt →
    s.operands.curve.p ≠ 0 → exec i s = .next t → t.status.err = 0#4 →
    (t.pair rd).1 < s.operands.curve.p ∧ (t.pair rd).2 < s.operands.curve.p ∧
      s.operands.curve.Holds (t.pair rd).1 (t.pair rd).2

/-- PADD does not depend on the order of its operands, in its result and in its errors (41_curve.md R179,
42_scalar.md R205). -/
def Obligations.PaddCommutes : Prop :=
  ∀ (s : State) (rd rs rt : RegNum), s.operands.curve.p ≠ 0 →
    exec (.padd rd rs rt) s = exec (.padd rd rt rs) s

/-! ### Scalar multiplication -/

/-- 42_scalar.md R200: PMUL writes what the loop's rounds give, LSB-first double-and-add over the unreduced
scalar gives, the addend doubled in every round, the last included. -/
def Obligations.PmulResult : Prop :=
  ∀ (s : State) (rd rs rt : RegNum) (c : Curve) (P : Point) (n : Nat) (R : Point),
    s.operands.cfgLocked = true → s.operands.curve = c → c.p ≠ 0 →
    s.operands.point rs = P → s.operands.reg rt = n →
    c.Holds P.1 P.2 → n % c.p ≠ 0 → DoubleAndAdd c P n R →
    ∃ t, exec (.pmul rd rs rt) s = .next t ∧ WritesOnly (pairRegs rd) s t ∧ t.pair rd = R

/-- 42_scalar.md R200, R202: PMUL tests the point first, INVALID_POINT (3), then the scalar against the field
prime, DOMAIN (1). -/
def Obligations.PmulPreconditions : Prop :=
  ∀ (s : State) (rd rs rt : RegNum) (c : Curve) (P : Point),
    s.operands.cfgLocked = true → s.operands.curve = c → c.p ≠ 0 → s.operands.point rs = P →
    (¬c.Holds P.1 P.2 → exec (.pmul rd rs rt) s = .next (completedWith 3#4 s)) ∧
    (c.Holds P.1 P.2 → s.operands.reg rt % c.p = 0 →
      exec (.pmul rd rs rt) s = .next (completedWith 1#4 s))

/-- An error of a fold or of a doubling ends PMUL with its code and no result (42_scalar.md R200, R201). -/
def Obligations.PmulLoopErrors : Prop :=
  ∀ (s : State) (rd rs rt : RegNum) (c : Curve) (P : Point) (n : Nat) (e : Err),
    s.operands.cfgLocked = true → s.operands.curve = c → c.p ≠ 0 →
    s.operands.point rs = P → s.operands.reg rt = n →
    c.Holds P.1 P.2 → n % c.p ≠ 0 → DoubleAndAddFails c P n e →
    exec (.pmul rd rs rt) s = .next (completedWith e.code s)

/-- PMUL by 1 returns the decoded point but still doubles it once, so a point with y ≡ 0 gives DOMAIN (1)
(42_scalar.md R201, corner cases). -/
def Obligations.PmulByOne : Prop :=
  ∀ (s : State) (rd rs rt : RegNum) (c : Curve) (P : Point),
    s.operands.cfgLocked = true → s.operands.curve = c → 1 < c.p →
    s.operands.point rs = P → s.operands.reg rt = 1 → c.Holds P.1 P.2 →
    (P.2 % c.p = 0 → exec (.pmul rd rs rt) s = .next (completedWith 1#4 s)) ∧
    (P.2 % c.p ≠ 0 → Int.gcd (2 * (P.2 : Int)) c.p = 1 →
      ∃ t, exec (.pmul rd rs rt) s = .next t ∧ WritesOnly (pairRegs rd) s t ∧
        t.pair rd = (P.1 % c.p, P.2 % c.p))

/-! ### Codec -/

/-- 43_codec.md R222, R221: the words of PSER; PSER writes the prefix, be32(x) and, uncompressed, be32(y) of
the raw pair, clears the bytes past the form's length, sets BUF_LEN to 33 or 65, and leaves everything else.
-/
def Obligations.PserResult : Prop :=
  EncodedAs 0x00000020#32 0xFFEF1FFF#32 (fun w => .pser (formOf (fieldF w)) (fieldRs w)) ∧
  (∀ (s : State) (c : Form) (rs : RegNum) (x y : Nat), s.operands.point rs = (x, y) →
    ∃ t, exec (.pser c rs) s = .next t ∧ CompletedOk s t ∧
      t.data = { s.data with buf := t.data.buf, bufLen := t.data.bufLen } ∧
      t.status.onCurve = s.status.onCurve ∧ t.status.cfgLocked = s.status.cfgLocked ∧
      (∀ (i : Nat) (h : i < 32), t.data.buf[1 + i] = be32Byte x i) ∧
      (c = .compressed →
        t.data.bufLen = 33#7 ∧ t.data.buf[0] = (if y % 2 = 0 then 0x02#8 else 0x03#8) ∧
        ∀ (k : Nat) (h : k < 65), 33 ≤ k → t.data.buf[k] = 0x00#8) ∧
      (c = .uncompressed →
        t.data.bufLen = 65#7 ∧ t.data.buf[0] = 0x04#8 ∧
        ∀ (i : Nat) (h : i < 32), t.data.buf[33 + i] = be32Byte y i))

/-- PPAR's refusals with the curve locked, in test order: ENCODING (9) for a length outside 33..65, then on the
decompression path UNSUPPORTED (10) with STRICT_SQRT = 1 and p mod 4 ≠ 3 (43_codec.md R223, R226, R228). -/
def Obligations.PparErrors : Prop :=
  ∀ (s : State) (rd : RegNum) (len : Nat), s.operands.cfgLocked = true →
    s.operands.data.bufLen.toNat = len →
    (len < 33 ∨ 65 < len → exec (.ppar rd) s = .next (completedWith 9#4 s)) ∧
    (33 ≤ len → len ≤ 65 → s.operands.data.buf[0] ≠ 0x04#8 → s.operands.strictSqrt = true →
      s.operands.curve.p % 4 ≠ 3 → exec (.ppar rd) s = .next (completedWith 10#4 s))

/-- 43_codec.md R224: with prefix 0x04, x is be(BUF[1..32]) and y is be(BUF[33..L−1]), neither reduced nor
checked, whatever STRICT_SQRT. -/
def Obligations.PparUncompressed : Prop :=
  ∀ (s : State) (rd : RegNum) (len : Nat), s.operands.cfgLocked = true →
    s.operands.data.bufLen.toNat = len → 33 ≤ len → len ≤ 65 → s.operands.data.buf[0] = 0x04#8 →
    ∃ t, exec (.ppar rd) s = .next t ∧ WritesOnly (pairRegs rd) s t ∧
      t.pair rd = (bigEndian s.operands.data.buf 1 32, bigEndian s.operands.data.buf 33 (len - 33))

/-- 43_codec.md R225, R227: with any other prefix, y is the exact power (x³ + a·x + b)^((p+1) div 4) mod p, or p
minus it where its parity is not that of the prefix; x is not reduced. -/
def Obligations.PparDecompress : Prop :=
  ∀ (s : State) (rd : RegNum) (len x root : Nat) (c : Curve), s.operands.cfgLocked = true →
    s.operands.data.bufLen.toNat = len → 33 ≤ len → len ≤ 65 → s.operands.data.buf[0] ≠ 0x04#8 →
    s.operands.curve = c → c.p ≠ 0 → (s.operands.strictSqrt = true → c.p % 4 = 3) →
    x = bigEndian s.operands.data.buf 1 32 →
    root = (x ^ 3 + c.a * x + c.b) ^ ((c.p + 1) / 4) % c.p →
    ∃ t, exec (.ppar rd) s = .next t ∧ WritesOnly (pairRegs rd) s t ∧
      t.pair rd =
        (x, if root % 2 = (s.operands.data.buf[0]).toNat % 2 then root else c.p - root)

/-- The uncompressed round trip returns every pair, on the curve or not (43_codec.md R230). -/
def Obligations.UncompressedRoundTrip : Prop :=
  ∀ (s : State) (w w' : Word32) (rd rs : RegNum), s.status.cfgLocked = true →
    ∃ t u, exec (.pser .uncompressed rs) (issue w s) = .next t ∧
      exec (.ppar rd) (issue w' t) = .next u ∧ u.status.err = 0#4 ∧ u.pair rd = s.pair rs

/-- The compressed round trip returns every canonical on-curve point when p is a prime with p ≡ 3 (mod 4)
(43_codec.md R230). -/
def Obligations.CompressedRoundTrip : Prop :=
  ∀ (s : State) (w w' : Word32) (rd rs : RegNum) (c : Curve), s.status.cfgLocked = true →
    (issue w s).operands.curve = c → Nat.Prime c.p → c.p % 4 = 3 →
    (s.pair rs).1 < c.p → (s.pair rs).2 < c.p → c.Holds (s.pair rs).1 (s.pair rs).2 →
    ∃ t u, exec (.pser .compressed rs) (issue w s) = .next t ∧
      exec (.ppar rd) (issue w' t) = .next u ∧ u.status.err = 0#4 ∧ u.pair rd = s.pair rs

/-! ### Configuration -/

/-- 44_config.md R250: the word of CFG; CFG reports CONFIG (7) when already locked, MODULUS (8) when CURVE_P =
0, and else locks and changes nothing else. -/
def Obligations.CfgResult : Prop :=
  EncodedAs 0x00000030#32 0xFFFFFFFF#32 (fun _ => .cfg) ∧
  (∀ s : State,
    (s.operands.cfgLocked = true → exec .cfg s = .next (completedWith 7#4 s)) ∧
    (s.operands.cfgLocked = false → s.operands.curve.p = 0 →
      exec .cfg s = .next (completedWith 8#4 s)) ∧
    (s.operands.cfgLocked = false → s.operands.curve.p ≠ 0 →
      ∃ t, exec .cfg s = .next t ∧ CompletedOk s t ∧ t.data = s.data ∧
        t.status.cfgLocked = true ∧ t.status.onCurve = s.status.onCurve))
end

