-- ==== Sys2Proof/Laws/Arith.lean ====
section
/-! SUPPORT. What the arithmetic of Machine/Arith.lean computes: reduce is the Euclidean remainder, the
loop of egcd gives the gcd and a Bézout coefficient, inverse gives the inverse exactly when there is
one, powMod is the power, be and be32 are inverse to each other. -/

namespace Sys2Proof.Machine

/-! ### reduce (40_modular.md R142) -/

theorem reduce_cast (v : Int) {p : Nat} (hp : p ≠ 0) : (reduce v p : Int) = v % p :=
  Int.toNat_of_nonneg (Int.emod_nonneg _ (by exact_mod_cast hp))

theorem reduce_lt (v : Int) {p : Nat} (hp : p ≠ 0) : reduce v p < p := by
  have h := Int.emod_lt_of_pos v (show (0 : Int) < p by omega)
  rw [← reduce_cast v hp] at h
  exact_mod_cast h

@[simp] theorem reduce_natCast (n p : Nat) : reduce (n : Int) p = n % p := by
  simp only [reduce]; norm_cast

theorem reduce_modEq (v : Int) {p : Nat} (hp : p ≠ 0) : (reduce v p : Int) ≡ v [ZMOD p] := by
  rw [reduce_cast v hp]; exact Int.mod_modEq v p

theorem reduce_congr {v v' : Int} {p : Nat} (h : v ≡ v' [ZMOD p]) : reduce v p = reduce v' p := by
  unfold reduce; rw [h]

theorem reduce_eq_iff {v v' : Int} {p : Nat} (hp : p ≠ 0) :
    reduce v p = reduce v' p ↔ v ≡ v' [ZMOD p] := by
  refine ⟨fun h => ?_, reduce_congr⟩
  have := congrArg (Nat.cast (R := Int)) h
  rwa [reduce_cast v hp, reduce_cast v' hp] at this

theorem reduce_eq_zero_iff {v : Int} {p : Nat} (hp : p ≠ 0) :
    reduce v p = 0 ↔ v ≡ 0 [ZMOD p] := by
  rw [← reduce_eq_iff hp]; simp [reduce]

/-- A canonical residue fits a register (00_scope.md R10). -/
theorem toNat_ofNat_of_lt {v p : Nat} (h : v < p) (hp : p ≤ 2 ^ 256) :
    (BitVec.ofNat 256 v).toNat = v := by
  rw [BitVec.toNat_ofNat]; exact Nat.mod_eq_of_lt (by omega)

/-! ### egcd (40_modular.md R144) -/

/-- The loop returns the gcd of its remainders, and keeps k·s ≡ r (mod p) for both pairs. -/
theorem egcdLoop_spec (k p : Nat) (fuel oldR r : Nat) (oldS s : Int) (hf : r ≤ fuel)
    (h0 : (oldR : Int) ≡ k * oldS [ZMOD p]) (h1 : (r : Int) ≡ k * s [ZMOD p]) :
    (egcdLoop fuel oldR r oldS s).1 = Nat.gcd oldR r ∧
      ((Nat.gcd oldR r : Nat) : Int) ≡ k * (egcdLoop fuel oldR r oldS s).2 [ZMOD p] := by
  induction fuel generalizing oldR r oldS s with
  | zero =>
    obtain rfl : r = 0 := by omega
    simpa [egcdLoop] using h0
  | succ fuel ih =>
    by_cases hr : r = 0
    · subst hr; simpa [egcdLoop] using h0
    · have hmod : oldR - oldR / r * r = oldR % r := by
        have := Nat.mod_add_div oldR r
        rw [Nat.mul_comm] at this; omega
      have hlt : oldR % r < r := Nat.mod_lt _ (by omega)
      have hstep : ((oldR % r : Nat) : Int) ≡ k * (oldS - (oldR / r : Nat) * s) [ZMOD p] := by
        have he : ((oldR % r : Nat) : Int) = oldR - (oldR / r : Nat) * r := by
          have := Nat.mod_add_div oldR r
          have h' : ((oldR % r + r * (oldR / r) : Nat) : Int) = oldR := by rw [this]
          push_cast at h' ⊢; linarith
        rw [he]
        have := h0.sub (h1.mul_left ((oldR / r : Nat) : Int))
        refine this.trans (by rw [mul_sub]; ring_nf; rfl)
      have := ih r (oldR % r) s (oldS - (oldR / r : Nat) * s) (by omega) h1 hstep
      simp only [egcdLoop, hr, if_false, hmod]
      rw [Nat.gcd_comm oldR r, Nat.gcd_rec r oldR, Nat.gcd_comm]
      exact this

theorem egcd_gcd (k p : Nat) : (egcd k p).1 = Nat.gcd k p :=
  (egcdLoop_spec k p p k p 1 0 le_rfl (by simp) (by simp [Int.ModEq])).1

theorem egcd_bezout (k p : Nat) : ((Nat.gcd k p : Nat) : Int) ≡ k * (egcd k p).2 [ZMOD p] :=
  (egcdLoop_spec k p p k p 1 0 le_rfl (by simp) (by simp [Int.ModEq])).2

/-! ### inverse (40_modular.md R143) -/

theorem inversePos_notInvertible {k p : Nat} (h : Nat.gcd k p ≠ 1) :
    inversePos k p = .error .notInvertible := by simp [inversePos, egcd_gcd, h]

/-- p = 1 is the one modulus at which the postcondition fails (40_modular.md R143). -/
theorem inversePos_one (k : Nat) : inversePos k 1 = .error .assertion := by
  have h : (egcd k 1).1 = 1 := by simp [egcd_gcd]
  have h' : k * reduce (egcd k 1).2 1 % 1 ≠ 1 := by omega
  simp only [inversePos, h, ne_eq, not_true_eq_false, if_false, h', not_false_eq_true, if_true]

/-- For p ≥ 2 and gcd(k, p) = 1 the inverse exists, is canonical and is an inverse. -/
theorem inversePos_ok {k p : Nat} (hp : 1 < p) (h : Nat.gcd k p = 1) :
    ∃ m : Nat, inversePos k p = .ok (m : Int) ∧ m < p ∧ k * m % p = 1 := by
  have hp0 : p ≠ 0 := by omega
  refine ⟨reduce (egcd k p).2 p, ?_, reduce_lt _ hp0, ?_⟩
  all_goals
    have hb := egcd_bezout k p
    rw [h] at hb
    have hm : ((k * reduce (egcd k p).2 p : Nat) : Int) ≡ ((1 : Nat) : Int) [ZMOD p] := by
      push_cast
      exact (((reduce_modEq (egcd k p).2 hp0).mul_left (k : Int))).trans (by simpa using hb.symm)
    have hn : k * reduce (egcd k p).2 p % p = 1 := by
      have := (Int.natCast_modEq_iff.mp hm)
      rw [this]; exact Nat.mod_eq_of_lt hp
  · simp only [inversePos, egcd_gcd, h, ne_eq, not_true_eq_false, if_false, hn]
  · exact hn

theorem inverse_zero (p : Nat) : inverse 0 p = .error .domain := by simp [inverse]

theorem inverse_notInvertible {k : Int} {p : Nat} (hk : k ≠ 0) (h : Int.gcd k p ≠ 1) :
    inverse k p = .error .notInvertible := by
  have hg : Nat.gcd k.natAbs p ≠ 1 := by simpa [Int.gcd] using h
  by_cases hn : k < 0
  · have hto : (-k).toNat = k.natAbs := by omega
    simp [inverse, hk, hn, hto, inversePos_notInvertible hg, Except.map]
  · have hto : k.toNat = k.natAbs := by omega
    simp [inverse, hk, hn, hto, inversePos_notInvertible hg]

/-- The inverse of a unit for p ≥ 2, whatever its sign. -/
theorem inverse_ok {k : Int} {p : Nat} (hp : 1 < p) (h : Int.gcd k p = 1) :
    ∃ m : Int, inverse k p = .ok m ∧ k * m ≡ 1 [ZMOD p] ∧ 0 ≤ m ∧ m ≤ p := by
  have hk : k ≠ 0 := by
    rintro rfl; simp at h; omega
  have hg : Nat.gcd k.natAbs p = 1 := by simpa [Int.gcd] using h
  obtain ⟨m, hm, hlt, hone⟩ := inversePos_ok hp hg
  have hone' : ((k.natAbs : Int) * m) ≡ 1 [ZMOD p] := by
    have : (k.natAbs * m) ≡ 1 [MOD p] := by
      rw [Nat.ModEq, hone, Nat.mod_eq_of_lt hp]
    exact_mod_cast Int.natCast_modEq_iff.mpr this
  by_cases hn : k < 0
  · have hto : (-k).toNat = k.natAbs := by omega
    refine ⟨p - m, by simp [inverse, hk, hn, hto, hm, Except.map], ?_, by omega, by omega⟩
    have habs : (k.natAbs : Int) = -k := by omega
    rw [habs] at hone'
    have : k * ((p : Int) - m) = -k * m + p * k := by ring
    rw [this]
    exact (Int.modEq_iff_dvd.mpr ⟨-k, by ring⟩ : -k * m + p * k ≡ -k * m [ZMOD p]).trans hone'
  · have hto : k.toNat = k.natAbs := by omega
    refine ⟨m, by simp [inverse, hk, hn, hto, hm], ?_, by omega, by omega⟩
    have habs : (k.natAbs : Int) = k := by omega
    rwa [habs] at hone'

/-- Every way inverse can end, for p ≥ 1 (40_modular.md R143). -/
theorem inverse_cases (k : Int) {p : Nat} (hp : p ≠ 0) :
    (k = 0 ∧ inverse k p = .error .domain) ∨
    (k ≠ 0 ∧ Int.gcd k p ≠ 1 ∧ inverse k p = .error .notInvertible) ∨
    (k ≠ 0 ∧ p = 1 ∧ inverse k p = .error .assertion) ∨
    (1 < p ∧ Int.gcd k p = 1 ∧
      ∃ m : Int, inverse k p = .ok m ∧ k * m ≡ 1 [ZMOD p] ∧ 0 ≤ m ∧ m ≤ p) := by
  by_cases hk : k = 0
  · exact .inl ⟨hk, hk ▸ inverse_zero p⟩
  by_cases hg : Int.gcd k p = 1
  · by_cases h1 : p = 1
    · refine .inr (.inr (.inl ⟨hk, h1, ?_⟩))
      subst h1
      by_cases hn : k < 0 <;> simp [inverse, hk, hn, inversePos_one, Except.map]
    · exact .inr (.inr (.inr ⟨by omega, hg, inverse_ok (by omega) hg⟩))
  · exact .inr (.inl ⟨hk, hg, inverse_notInvertible hk hg⟩)

/-! ### powMod (00_scope.md R12) -/

theorem powModLoop_eq (p fuel b e : Nat) (h : e ≤ fuel) :
    powModLoop fuel b e p = b ^ e % p := by
  induction fuel generalizing b e with
  | zero => obtain rfl : e = 0 := by omega
            simp [powModLoop]
  | succ fuel ih =>
    by_cases he : e = 0
    · simp [powModLoop, he]
    · have hsq : powModLoop fuel (b * b % p) (e / 2) p = b ^ (2 * (e / 2)) % p := by
        rw [ih _ _ (by omega), ← Nat.pow_mod, pow_mul]; ring_nf
      rcases Nat.mod_two_eq_zero_or_one e with h0 | h1
      · have h2 : 2 * (e / 2) = e := by omega
        simp [powModLoop, he, h0, hsq, h2]
      · have h2 : e = 2 * (e / 2) + 1 := by omega
        simp only [powModLoop, he, h1, if_false, if_true, hsq]
        conv_rhs => rw [h2, pow_succ, Nat.mul_comm]
        rw [Nat.mul_mod, Nat.mod_mod, ← Nat.mul_mod]

/-- `pow(b, e, p)` = (b^e) mod p, b^0 = 1 for every b (00_scope.md R12). -/
theorem powMod_eq (b e p : Nat) : powMod b e p = b ^ e % p := by
  rw [powMod, powModLoop_eq p e (b % p) e le_rfl, ← Nat.pow_mod]

/-! ### be and be32 (00_scope.md R13) -/

@[simp] theorem be_nil : be [] = 0 := rfl

theorem be_foldl (acc : Nat) (bs : List Byte) :
    bs.foldl (fun acc b => acc * 256 + b.toNat) acc = acc * 256 ^ bs.length + be bs := by
  induction bs generalizing acc with
  | nil => simp [be]
  | cons b bs ih =>
    simp only [be, List.foldl_cons, List.length_cons, Nat.zero_mul, Nat.zero_add]
    rw [ih, ih b.toNat]; ring

theorem be_cons (b : Byte) (bs : List Byte) : be (b :: bs) = b.toNat * 256 ^ bs.length + be bs := by
  simpa [be] using be_foldl b.toNat bs

theorem be_append (as bs : List Byte) : be (as ++ bs) = be as * 256 ^ bs.length + be bs := by
  rw [be, List.foldl_append, be_foldl]; rfl

theorem be_lt (bs : List Byte) : be bs < 256 ^ bs.length := by
  induction bs with
  | nil => simp
  | cons b bs ih =>
    rw [be_cons, List.length_cons, pow_succ]
    have := b.isLt
    have h256 : b.toNat * 256 ^ bs.length ≤ 255 * 256 ^ bs.length := Nat.mul_le_mul_right _ (by omega)
    omega

@[simp] theorem length_be32 (v : Nat) : (be32 v).length = 32 := by simp [be32]

theorem be32_getElem (v i : Nat) (h : i < 32) :
    (be32 v)[i]'(by simpa using h) = BitVec.ofNat 8 (v / 256 ^ (31 - i)) := by simp [be32]

/-- The first n digits of a base-256 expansion of m ≥ n digits. -/
theorem be_digits (v n : Nat) :
    be ((List.range n).map fun i => BitVec.ofNat 8 (v / 256 ^ (n - 1 - i))) = v % 256 ^ n := by
  induction n generalizing v with
  | zero => simp [Nat.mod_one]
  | succ n ih =>
    rw [List.range_succ, List.map_append, be_append]
    have hmap : ((List.range n).map fun i => BitVec.ofNat 8 (v / 256 ^ (n + 1 - 1 - i))) =
        (List.range n).map fun i => BitVec.ofNat 8 (v / 256 / 256 ^ (n - 1 - i)) := by
      apply List.map_congr_left
      intro i hi
      have hi' : i < n := List.mem_range.mp hi
      rw [Nat.div_div_eq_div_mul, ← pow_succ']
      congr 3; omega
    rw [hmap, ih]
    simp only [List.map_cons, List.map_nil, be_cons, List.length_nil, List.length_singleton, pow_zero,
      pow_one, Nat.mul_one, be_nil, Nat.add_zero, BitVec.toNat_ofNat]
    have h1 : n + 1 - 1 - n = 0 := by omega
    rw [h1, pow_zero, Nat.div_one, pow_succ' 256 n, Nat.mod_mul]
    omega

/-- be undoes be32 on every value a register holds. -/
theorem be_be32 {v : Nat} (h : v < 2 ^ 256) : be (be32 v) = v := by
  have := be_digits v 32
  rw [be32]
  simp only [Nat.reduceSub] at this
  rw [this]
  exact Nat.mod_eq_of_lt (by norm_num at h ⊢; exact h)

end Sys2Proof.Machine
end

