-- ==== Sys2Proof/Laws/Codec.lean ====
section
/-! SUPPORT. The codec (43_codec.md R220 to R230): the bytes of a serialised point as BUF holds them, what
parsing them gives back, and every way parse can end. -/

namespace Sys2Proof.Machine

/-! ### Serialising (43_codec.md R221, R222) -/

@[simp] theorem length_serialize (x y : Nat) (c : Form) :
    (serialize x y c).length = match c with | .compressed => 33 | .uncompressed => 65 := by
  cases c <;> simp [serialize]

/-- BUF after a write of bytes: the bytes, then zeros (43_codec.md R222). -/
theorem bufferOf_getElem (bytes : List Byte) (k : Nat) (h : k < 65) :
    (bufferOf bytes)[k] = bytes.getD k 0#8 := by
  simp [bufferOf]

theorem bufferOf_toList (bytes : List Byte) (h : bytes.length ≤ 65) :
    (bufferOf bytes).toList = bytes ++ List.replicate (65 - bytes.length) 0#8 := by
  apply List.ext_getElem
  · simp; omega
  · intro k h1 h2
    have hk : k < 65 := by simpa using h1
    rw [Vector.getElem_toList, bufferOf_getElem bytes k hk, List.getElem_append]
    split
    · rename_i hlt; simp [hlt]
    · rename_i hge; simp [List.getElem?_eq_none (by omega : bytes.length ≤ k)]

/-! ### Parsing (43_codec.md R223 to R227) -/

/-- Every way parse can end, in test order. -/
theorem parse_cases (c : Curve) (bytes : List Byte) (len : Nat) (strict : Bool) :
    ((len < 33 ∨ 65 < len) ∧ parse c bytes len strict = .error .encoding) ∨
    (33 ≤ len ∧ len ≤ 65 ∧ bytes.getD 0 0#8 = 0x04#8 ∧
      parse c bytes len strict = .ok (parseX bytes, be ((bytes.take len).drop 33))) ∨
    (33 ≤ len ∧ len ≤ 65 ∧ bytes.getD 0 0#8 ≠ 0x04#8 ∧ strict = true ∧ c.p % 4 ≠ 3 ∧
      parse c bytes len strict = .error .unsupported) ∨
    (33 ≤ len ∧ len ≤ 65 ∧ bytes.getD 0 0#8 ≠ 0x04#8 ∧ (strict = false ∨ c.p % 4 = 3) ∧
      parse c bytes len strict =
        .ok (parseX bytes, matchParity c.p (computedRoot c (parseX bytes)) (bytes.getD 0 0#8))) := by
  by_cases hlen : len < 33 ∨ 65 < len
  · exact .inl ⟨hlen, by simp [parse, hlen]⟩
  · have hl : 33 ≤ len ∧ len ≤ 65 := by omega
    by_cases hpre : bytes.getD 0 0#8 = 0x04#8
    · refine .inr (.inl ⟨hl.1, hl.2, hpre, ?_⟩)
      simp only [parse, hlen, if_false, hpre, if_true, parseUncompressed]
    · by_cases hs : strict = true ∧ c.p % 4 ≠ 3
      · refine .inr (.inr (.inl ⟨hl.1, hl.2, hpre, hs.1, hs.2, ?_⟩))
        simp only [parse, hlen, if_false, hpre, decompress]
        simp [hs.1, hs.2]
      · refine .inr (.inr (.inr ⟨hl.1, hl.2, hpre, ?_, ?_⟩))
        · by_cases h : strict = true
          · exact .inr (by by_contra hc; exact hs ⟨h, hc⟩)
          · exact .inl (by simpa using h)
        · have hg : (strict && c.p % 4 != 3) = false := by
            by_contra hc
            simp only [Bool.not_eq_false, Bool.and_eq_true, bne_iff_ne, ne_eq] at hc
            exact hs hc
          simp only [parse, hlen, if_false, hpre, decompress, hg, Bool.false_eq_true]

/-- The computed root is the power the rule names (43_codec.md R225). -/
theorem computedRoot_eq (c : Curve) (x : Nat) :
    computedRoot c x = (x ^ 3 + c.a * x + c.b) ^ ((c.p + 1) / 4) % c.p := by
  have h : reduce ((x : Int) ^ 3 + c.a * x + c.b) c.p = (x ^ 3 + c.a * x + c.b) % c.p := by
    rw [← reduce_natCast]; push_cast; rfl
  rw [computedRoot, powMod_eq, h, ← Nat.pow_mod]

theorem computedRoot_lt (c : Curve) (hp : c.p ≠ 0) (x : Nat) : computedRoot c x < c.p := by
  rw [computedRoot_eq c]; exact Nat.mod_lt _ (by omega)

/-- The x of a serialised point is read back (43_codec.md R223). -/
theorem parseX_serialize {x : Nat} (hx : x < 2 ^ 256) (y : Nat) (c : Form) (rest : List Byte) :
    parseX (serialize x y c ++ rest) = x := by
  cases c <;> simp [parseX, serialize, List.append_assoc, be_be32 hx]

theorem compressed_lead (x y : Nat) (rest : List Byte) :
    (serialize x y .compressed ++ rest).getD 0 0#8 = if y % 2 = 0 then 0x02#8 else 0x03#8 := by
  simp [serialize]

/-- The uncompressed form is read back whole (43_codec.md R224, R230). -/
theorem parse_serialize_uncompressed (c : Curve) {x y : Nat} (hx : x < 2 ^ 256) (hy : y < 2 ^ 256)
    (strict : Bool) :
    parse c (bufferOf (serialize x y .uncompressed)).toList 65 strict = .ok (x, y) := by
  rw [bufferOf_toList _ (by simp)]
  have hX := parseX_serialize hx y .uncompressed (List.replicate (65 - (serialize x y .uncompressed).length) 0#8)
  have hpre : (serialize x y .uncompressed ++
      List.replicate (65 - (serialize x y .uncompressed).length) 0#8).getD 0 0#8 = 0x04#8 := by
    simp [serialize]
  simp only [parse, hpre, parseUncompressed, hX]
  have htake : (be32 x ++ be32 y).take 64 = be32 x ++ be32 y := List.take_of_length_le (by simp)
  have hdrop : (be32 x ++ be32 y).drop 32 = be32 y := List.drop_left' (by simp)
  simp [serialize, htake, hdrop, be_be32 hy]

/-- The compressed form is read back as a decompression of x (43_codec.md R225, R230). -/
theorem parse_serialize_compressed (c : Curve) {x : Nat} (hx : x < 2 ^ 256) (y : Nat) (strict : Bool) :
    parse c (bufferOf (serialize x y .compressed)).toList 33 strict =
      decompress c x (if y % 2 = 0 then 0x02#8 else 0x03#8) strict := by
  rw [bufferOf_toList _ (by simp), parse, parseX_serialize hx, compressed_lead]
  split
  · omega
  · by_cases hy : y % 2 = 0 <;> simp [hy]

end Sys2Proof.Machine
end

