-- ==== Sys2Proof/Laws/Curve.lean ====
section
/-! SUPPORT. The group law of Machine/Curve.lean and the loop of Machine/Scalar.lean: when two points add,
what the sum is, that it lies on the curve (41_curve.md R173), and every way the addition can fail. -/

namespace Sys2Proof.Machine

/-! ### The curve equation -/

/-- The on-curve test is the curve equation modulo p (41_curve.md R170). -/
theorem onCurve_iff (c : Curve) (hp : c.p ≠ 0) (x y : Nat) :
    onCurve c x y = true ↔ c.Holds x y := by
  rw [onCurve, beq_iff_eq, reduce_eq_zero_iff hp, Curve.Holds]
  constructor <;> intro h
  · have := h.add_right ((x : Int) ^ 3 + c.a * x + c.b)
    rw [zero_add] at this
    have he : (y : Int) ^ 2 =
        (y : Int) ^ 2 - (x : Int) ^ 3 - c.a * x - c.b + ((x : Int) ^ 3 + c.a * x + c.b) := by ring
    rw [he]; exact this
  · have := h.sub_right ((x : Int) ^ 3 + c.a * x + c.b)
    rw [sub_self] at this
    have he : (y : Int) ^ 2 - (x : Int) ^ 3 - c.a * x - c.b =
        (y : Int) ^ 2 - ((x : Int) ^ 3 + c.a * x + c.b) := by ring
    rwa [he]

/-- The curve equation depends on the coordinates' residues only (41_curve.md R170). -/
theorem Curve.Holds.congr {c : Curve} {x y x' y' : Int} (hx : x ≡ x' [ZMOD c.p])
    (hy : y ≡ y' [ZMOD c.p]) : c.Holds x y ↔ c.Holds x' y' := by
  have hl := hy.pow 2
  have hr := ((hx.pow 3).add (hx.mul_left (c.a : Int))).add_right (c.b : Int)
  exact ⟨fun h => hl.symm.trans (h.trans hr), fun h => hl.trans (h.trans hr.symm)⟩

theorem decodePoint_fst_modEq (c : Curve) (hp : c.p ≠ 0) (P : Point) :
    ((decodePoint c P).1 : Int) ≡ P.1 [ZMOD c.p] := reduce_modEq (P.1 : Int) hp

theorem decodePoint_snd_modEq (c : Curve) (hp : c.p ≠ 0) (P : Point) :
    ((decodePoint c P).2 : Int) ≡ P.2 [ZMOD c.p] := reduce_modEq (P.2 : Int) hp

theorem decodePoint_fst (c : Curve) (P : Point) : (decodePoint c P).1 = P.1 % c.p :=
  reduce_natCast _ _

theorem decodePoint_snd (c : Curve) (P : Point) : (decodePoint c P).2 = P.2 % c.p :=
  reduce_natCast _ _

/-- Decoding does not move a point off or onto the curve (41_curve.md R170, R171). -/
theorem onCurve_decode_iff (c : Curve) (hp : c.p ≠ 0) (P : Point) :
    onCurve c (decodePoint c P).1 (decodePoint c P).2 = true ↔ c.Holds P.1 P.2 := by
  rw [onCurve_iff c hp]
  exact Curve.Holds.congr (decodePoint_fst_modEq c hp P) (decodePoint_snd_modEq c hp P)

/-! ### The line meets the cubic again on the curve (41_curve.md R173) -/

theorem chord_on_curve {R : Type*} [CommRing R] (a b x1 y1 x2 y2 m : R)
    (h1 : y1 ^ 2 = x1 ^ 3 + a * x1 + b) (h2 : y2 ^ 2 = x2 ^ 3 + a * x2 + b)
    (hu : IsUnit (x1 - x2)) (hm : m * (x1 - x2) = y1 - y2) :
    (m * (x1 - (m ^ 2 - x1 - x2)) - y1) ^ 2 =
      (m ^ 2 - x1 - x2) ^ 3 + a * (m ^ 2 - x1 - x2) + b := by
  have hslope : (x1 - x2) * (m * (y1 + y2)) = (x1 - x2) * (x1 ^ 2 + x1 * x2 + x2 ^ 2 + a) := by
    linear_combination (y1 + y2) * hm + h1 - h2
  have ha : a = m * (y1 + y2) - (x1 ^ 2 + x1 * x2 + x2 ^ 2) := by
    linear_combination -(hu.mul_left_cancel hslope)
  have hy2 : y2 = y1 - m * (x1 - x2) := by linear_combination hm
  have hb : b = y1 ^ 2 - x1 ^ 3 - a * x1 := by linear_combination -h1
  rw [hb, ha, hy2]; ring

theorem tangent_on_curve {R : Type*} [CommRing R] (a b x1 y1 m : R)
    (h1 : y1 ^ 2 = x1 ^ 3 + a * x1 + b) (hm : m * (2 * y1) = 3 * x1 ^ 2 + a) :
    (m * (x1 - (m ^ 2 - x1 - x1)) - y1) ^ 2 =
      (m ^ 2 - x1 - x1) ^ 3 + a * (m ^ 2 - x1 - x1) + b := by
  have ha : a = m * (2 * y1) - 3 * x1 ^ 2 := by linear_combination -hm
  have hb : b = y1 ^ 2 - x1 ^ 3 - a * x1 := by linear_combination -h1
  rw [hb, ha]; ring

/-- The sum's coordinates as integers modulo p (41_curve.md R172). -/
theorem sumX_modEq (c : Curve) (hp : c.p ≠ 0) (x1 x2 m : Nat) :
    (sumX c x1 x2 m : Int) ≡ (m : Int) ^ 2 - x1 - x2 [ZMOD c.p] := reduce_modEq _ hp

theorem sumY_modEq (c : Curve) (hp : c.p ≠ 0) (x1 y1 xr m : Nat) :
    (sumY c x1 y1 xr m : Int) ≡ (m : Int) * ((x1 : Int) - xr) - y1 [ZMOD c.p] := reduce_modEq _ hp

theorem sumX_lt (c : Curve) (hp : c.p ≠ 0) (x1 x2 m : Nat) : sumX c x1 x2 m < c.p := reduce_lt _ hp

theorem sumY_lt (c : Curve) (hp : c.p ≠ 0) (x1 y1 xr m : Nat) : sumY c x1 y1 xr m < c.p :=
  reduce_lt _ hp

/-- The curve equation in the ring of residues. -/
theorem Curve.holds_iff_zmod (c : Curve) (x y : Int) :
    c.Holds x y ↔ (y : ZMod c.p) ^ 2 = (x : ZMod c.p) ^ 3 + (c.a : ZMod c.p) * x + (c.b : ZMod c.p) := by
  rw [Curve.Holds, ← ZMod.intCast_eq_intCast_iff]; push_cast; exact Iff.rfl

theorem zmod_sum (c : Curve) (hp : c.p ≠ 0) (x1 y1 x2 m : Nat) :
    ((sumX c x1 x2 m : Int) : ZMod c.p) = (m : ZMod c.p) ^ 2 - x1 - x2 ∧
    ((sumY c x1 y1 (sumX c x1 x2 m) m : Int) : ZMod c.p) =
      (m : ZMod c.p) * ((x1 : ZMod c.p) - ((m : ZMod c.p) ^ 2 - x1 - x2)) - y1 := by
  have hx := (ZMod.intCast_eq_intCast_iff _ _ _).mpr (sumX_modEq c hp x1 x2 m)
  have hy := (ZMod.intCast_eq_intCast_iff _ _ _).mpr (sumY_modEq c hp x1 y1 (sumX c x1 x2 m) m)
  push_cast at hx hy ⊢
  rw [hx] at hy
  exact ⟨hx, hy⟩

/-- The postcondition of groupAdd in the addition case: it never fails (41_curve.md R173). -/
theorem sumPoint_chord (c : Curve) (hp : c.p ≠ 0) {x1 y1 x2 y2 m : Nat}
    (h1 : c.Holds x1 y1) (h2 : c.Holds x2 y2) (hg : Int.gcd ((x1 : Int) - x2) c.p = 1)
    (hm : (m : Int) * ((x1 : Int) - x2) ≡ (y1 : Int) - y2 [ZMOD c.p]) :
    sumPoint c x1 y1 x2 m = .ok (sumX c x1 x2 m, sumY c x1 y1 (sumX c x1 x2 m) m) := by
  have hcurve : c.Holds (sumX c x1 x2 m) (sumY c x1 y1 (sumX c x1 x2 m) m) := by
    rw [Curve.holds_iff_zmod] at h1 h2 ⊢
    obtain ⟨hx, hy⟩ := zmod_sum c hp x1 y1 x2 m
    rw [hx, hy]
    have hu : IsUnit (((x1 : Int) - x2 : Int) : ZMod c.p) := by
      rw [ZMod.coe_int_isUnit_iff_isCoprime]
      exact (Int.isCoprime_iff_gcd_eq_one.mpr hg).symm
    have hm' := (ZMod.intCast_eq_intCast_iff _ _ _).mpr hm
    push_cast at h1 h2 hu hm' ⊢
    exact chord_on_curve _ _ _ _ _ _ _ h1 h2 hu hm'
  simp [sumPoint, (onCurve_iff c hp _ _).mpr hcurve]

/-- The postcondition of groupAdd in the doubling case: it never fails (41_curve.md R173). -/
theorem sumPoint_tangent (c : Curve) (hp : c.p ≠ 0) {x1 y1 m : Nat} (h1 : c.Holds x1 y1)
    (hm : (m : Int) * (2 * y1) ≡ 3 * (x1 : Int) ^ 2 + c.a [ZMOD c.p]) :
    sumPoint c x1 y1 x1 m = .ok (sumX c x1 x1 m, sumY c x1 y1 (sumX c x1 x1 m) m) := by
  have hcurve : c.Holds (sumX c x1 x1 m) (sumY c x1 y1 (sumX c x1 x1 m) m) := by
    rw [Curve.holds_iff_zmod] at h1 ⊢
    obtain ⟨hx, hy⟩ := zmod_sum c hp x1 y1 x1 m
    rw [hx, hy]
    have hm' := (ZMod.intCast_eq_intCast_iff _ _ _).mpr hm
    push_cast at h1 hm' ⊢
    exact tangent_on_curve _ _ _ _ _ h1 hm'
  simp [sumPoint, (onCurve_iff c hp _ _).mpr hcurve]

/-! ### The slope -/

/-- A slope times its denominator is its numerator. -/
theorem slope_mul {p : Nat} (hp : p ≠ 0) {k i n : Int} (h : k * i ≡ 1 [ZMOD p]) :
    (reduce (n * i) p : Int) * k ≡ n [ZMOD p] := by
  have := ((reduce_modEq (n * i) hp).mul_right k)
  refine this.trans ?_
  have h' := h.mul_left n
  rw [mul_one] at h'
  have he : n * i * k = n * (k * i) := by ring
  rwa [he]

/-- Every way the chord slope can end where the x coordinates differ (41_curve.md R172). -/
theorem chordSlope_cases (c : Curve) {x1 y1 x2 y2 : Nat} (hx1 : x1 < c.p) (hx2 : x2 < c.p)
    (hne : x1 ≠ x2) :
    (Int.gcd ((x1 : Int) - x2) c.p ≠ 1 ∧ chordSlope c x1 y1 x2 y2 = .error .notInvertible) ∨
    (Int.gcd ((x1 : Int) - x2) c.p = 1 ∧ ∃ m : Nat, chordSlope c x1 y1 x2 y2 = .ok m ∧ m < c.p ∧
      (m : Int) * ((x1 : Int) - x2) ≡ (y1 : Int) - y2 [ZMOD c.p]) := by
  have hp : c.p ≠ 0 := by omega
  rcases inverse_cases ((x1 : Int) - x2) hp with ⟨h, -⟩ | ⟨-, hg, he⟩ | ⟨-, h, -⟩ | ⟨-, hg, i, he, hi, -⟩
  · omega
  · exact .inl ⟨hg, by rw [chordSlope, he]; rfl⟩
  · omega
  · exact .inr ⟨hg, _, by rw [chordSlope, he]; rfl, reduce_lt _ hp, slope_mul hp hi⟩

/-- Every way the tangent slope can end (41_curve.md R172). -/
theorem tangentSlope_cases (c : Curve) {x1 y1 : Nat} (hy1 : y1 < c.p) :
    (y1 = 0 ∧ tangentSlope c x1 y1 = .error .domain) ∨
    (y1 ≠ 0 ∧ Nat.gcd (2 * y1) c.p ≠ 1 ∧ tangentSlope c x1 y1 = .error .notInvertible) ∨
    (y1 ≠ 0 ∧ Nat.gcd (2 * y1) c.p = 1 ∧ ∃ m : Nat, tangentSlope c x1 y1 = .ok m ∧ m < c.p ∧
      (m : Int) * (2 * y1) ≡ 3 * (x1 : Int) ^ 2 + c.a [ZMOD c.p]) := by
  have hp : c.p ≠ 0 := by omega
  have hcast : Int.gcd (2 * (y1 : Int)) c.p = Nat.gcd (2 * y1) c.p := by
    rw [← Int.gcd_natCast_natCast]; push_cast; rfl
  rcases inverse_cases (2 * (y1 : Int)) hp with
    ⟨h, he⟩ | ⟨h, hg, he⟩ | ⟨h, h1, -⟩ | ⟨h1, hg, i, he, hi, -⟩
  · exact .inl ⟨by omega, by rw [tangentSlope, he]; rfl⟩
  · exact .inr (.inl ⟨by omega, by rwa [hcast] at hg, by rw [tangentSlope, he]; rfl⟩)
  · omega
  · refine .inr (.inr ⟨?_, by rwa [hcast] at hg, _, by rw [tangentSlope, he]; rfl, reduce_lt _ hp,
      slope_mul hp hi⟩)
    rintro rfl
    rw [hcast] at hg; simp at hg; omega

/-! ### groupAdd (41_curve.md R172) -/

/-- Every way groupAdd can end, in test order. The coordinates are those of the decoded points. -/
inductive AddCase (c : Curve) (x1 y1 x2 y2 : Nat) : Except Err Point → Prop where
  | offCurve (h : ¬(c.Holds x1 y1 ∧ c.Holds x2 y2)) : AddCase c x1 y1 x2 y2 (.error .invalidPoint)
  | opposite (h1 : c.Holds x1 y1) (h2 : c.Holds x2 y2) (hx : x1 = x2) (hy : y1 ≠ y2) :
      AddCase c x1 y1 x2 y2 (.error .undefinedResult)
  | doubleZero (h1 : c.Holds x1 y1) (hx : x1 = x2) (hy : y1 = y2) (h0 : y1 = 0) :
      AddCase c x1 y1 x2 y2 (.error .domain)
  | doubleNoInverse (h1 : c.Holds x1 y1) (hx : x1 = x2) (hy : y1 = y2) (h0 : y1 ≠ 0)
      (hg : Nat.gcd (2 * y1) c.p ≠ 1) : AddCase c x1 y1 x2 y2 (.error .notInvertible)
  | double (h1 : c.Holds x1 y1) (hx : x1 = x2) (hy : y1 = y2) (hg : Nat.gcd (2 * y1) c.p = 1) (m : Nat)
      (hm : (m : Int) * (2 * y1) ≡ 3 * (x1 : Int) ^ 2 + c.a [ZMOD c.p]) :
      AddCase c x1 y1 x2 y2 (.ok (sumX c x1 x1 m, sumY c x1 y1 (sumX c x1 x1 m) m))
  | chordNoInverse (h1 : c.Holds x1 y1) (h2 : c.Holds x2 y2) (hx : x1 ≠ x2)
      (hg : Int.gcd ((x1 : Int) - x2) c.p ≠ 1) : AddCase c x1 y1 x2 y2 (.error .notInvertible)
  | chord (h1 : c.Holds x1 y1) (h2 : c.Holds x2 y2) (hx : x1 ≠ x2)
      (hg : Int.gcd ((x1 : Int) - x2) c.p = 1) (m : Nat)
      (hm : (m : Int) * ((x1 : Int) - x2) ≡ (y1 : Int) - y2 [ZMOD c.p]) :
      AddCase c x1 y1 x2 y2 (.ok (sumX c x1 x2 m, sumY c x1 y1 (sumX c x1 x2 m) m))

theorem addDecoded_case (c : Curve) {x1 y1 x2 y2 : Nat} (hx1 : x1 < c.p) (hy1 : y1 < c.p)
    (hx2 : x2 < c.p) : AddCase c x1 y1 x2 y2 (addDecoded c x1 y1 x2 y2) := by
  have hp : c.p ≠ 0 := by omega
  by_cases hon : c.Holds x1 y1 ∧ c.Holds x2 y2
  · obtain ⟨h1, h2⟩ := hon
    have hguard : (!onCurve c x1 y1 || !onCurve c x2 y2) = false := by
      simp [(onCurve_iff c hp _ _).mpr h1, (onCurve_iff c hp _ _).mpr h2]
    simp only [addDecoded, hguard, Bool.false_eq_true, if_false, slope]
    by_cases hx : x1 = x2
    · subst hx
      by_cases hy : y1 = y2
      · subst hy
        simp only [if_true, ne_eq, not_true_eq_false, if_false]
        rcases tangentSlope_cases c (x1 := x1) hy1 with ⟨h0, he⟩ | ⟨h0, hg, he⟩ | ⟨h0, hg, m, he, -, hm⟩
        · rw [he]; exact .doubleZero h1 rfl rfl h0
        · rw [he]; exact .doubleNoInverse h1 rfl rfl h0 hg
        · rw [he]; simp only [sumPoint_tangent c hp h1 hm]; exact .double h1 rfl rfl hg m hm
      · simp only [if_true, ne_eq, hy, not_false_eq_true]; exact .opposite h1 h2 rfl hy
    · simp only [hx, if_false]
      rcases chordSlope_cases c (y1 := y1) (y2 := y2) hx1 hx2 hx with ⟨hg, he⟩ | ⟨hg, m, he, -, hm⟩
      · rw [he]; exact .chordNoInverse h1 h2 hx hg
      · rw [he]; simp only [sumPoint_chord c hp h1 h2 hg hm]; exact .chord h1 h2 hx hg m hm
  · have hguard : (!onCurve c x1 y1 || !onCurve c x2 y2) = true := by
      by_contra hcon
      simp only [Bool.or_eq_true, Bool.not_eq_true', not_or, Bool.not_eq_false] at hcon
      exact hon ⟨(onCurve_iff c hp _ _).mp hcon.1, (onCurve_iff c hp _ _).mp hcon.2⟩
    simp only [addDecoded, hguard, if_true]; exact .offCurve hon

/-- Every way groupAdd can end: the one lemma its callers cite (41_curve.md R172). -/
theorem groupAdd_case (c : Curve) (hp : c.p ≠ 0) (P Q : Point) :
    AddCase c (decodePoint c P).1 (decodePoint c P).2 (decodePoint c Q).1 (decodePoint c Q).2
      (groupAdd c P Q) :=
  addDecoded_case c (reduce_lt (P.1 : Int) hp) (reduce_lt (P.2 : Int) hp) (reduce_lt (Q.1 : Int) hp)

/-- A sum is canonical and on the curve (41_curve.md R173, R179). -/
theorem groupAdd_ok {c : Curve} (hp : c.p ≠ 0) {P Q R : Point} (h : groupAdd c P Q = .ok R) :
    R.1 < c.p ∧ R.2 < c.p ∧ c.Holds R.1 R.2 := by
  unfold groupAdd addDecoded at h
  split at h
  · cases h
  · split at h
    · cases h
    · unfold sumPoint at h
      split at h
      · rename_i hon
        obtain rfl := Except.ok.inj h
        exact ⟨reduce_lt _ hp, reduce_lt _ hp, (onCurve_iff c hp _ _).mp hon⟩
      · cases h

/-! ### The loop of scalarMul (42_scalar.md R200) -/

/-- With n ≥ 1 the loop ends with an accumulator: NONE never leaves it (42_scalar.md R200). -/
theorem scalarLoop_isSome (c : Curve) (fuel n : Nat) (acc : Option Point) (addend : Point)
    (r : Option Point) (hf : n ≤ fuel) (hn : n ≠ 0 ∨ acc.isSome)
    (h : scalarLoop c fuel n acc addend = .ok r) : r.isSome = true := by
  induction fuel generalizing n acc addend with
  | zero =>
    obtain rfl : n = 0 := by omega
    rcases hn with hn | hn
    · exact absurd rfl hn
    · rw [scalarLoop, Except.ok.injEq] at h; rwa [← h]
  | succ fuel ih =>
    rw [scalarLoop] at h
    by_cases h0 : n = 0
    · rw [if_pos h0, Except.ok.injEq] at h
      rcases hn with hn | hn
      · exact absurd h0 hn
      · rwa [← h]
    · rw [if_neg h0] at h
      split at h
      · cases h
      · rename_i acc' hacc
        split at h
        · cases h
        · refine ih (n / 2) acc' _ (by omega) ?_ h
          by_cases hodd : n % 2 = 1
          · right
            rw [if_pos hodd] at hacc
            cases acc with
            | none => simp only [foldAddend, Except.ok.injEq] at hacc; simp [← hacc]
            | some a =>
              simp only [foldAddend, Except.map] at hacc
              split at hacc
              · cases hacc
              · simp only [Except.ok.injEq] at hacc; simp [← hacc]
          · left; omega

end Sys2Proof.Machine
end

