-- ==== Sys2Proof/Laws/Decode.lean ====
section
/-! SUPPORT. Decoding and encoding by fields (30_encoding.md R111 to R117): a word is its six fields, the
mask and match of a row are conditions on them, and the table decoder is the decoder written out by
opcode. -/

namespace Sys2Proof

/-- A word is determined by its fields (30_encoding.md R111). -/
theorem word_ext {w w' : Word32} (hop : w.extractLsb' 0 8 = w'.extractLsb' 0 8)
    (hrd : w.extractLsb' 8 4 = w'.extractLsb' 8 4) (hrs : w.extractLsb' 12 4 = w'.extractLsb' 12 4)
    (hrt : w.extractLsb' 16 4 = w'.extractLsb' 16 4)
    (hf : w.extractLsb' 20 1 = w'.extractLsb' 20 1)
    (hres : w.extractLsb' 21 11 = w'.extractLsb' 21 11) : w = w' := by
  apply BitVec.eq_of_toNat_eq
  have h := congrArg BitVec.toNat hop
  have h1 := congrArg BitVec.toNat hrd
  have h2 := congrArg BitVec.toNat hrs
  have h3 := congrArg BitVec.toNat hrt
  have h4 := congrArg BitVec.toNat hf
  have h5 := congrArg BitVec.toNat hres
  simp only [BitVec.extractLsb'_toNat, Nat.shiftRight_eq_div_pow] at h h1 h2 h3 h4 h5
  have := w.isLt
  have := w'.isLt
  omega

/-- A row holds of a word when each field, masked, is the row's. -/
theorem holds_iff (r : OpcodeRow) (w : Word32) :
    r.holds w = true ↔
      (w.extractLsb' 0 8 &&& r.mask.extractLsb' 0 8 = r.value.extractLsb' 0 8 ∧
       w.extractLsb' 8 4 &&& r.mask.extractLsb' 8 4 = r.value.extractLsb' 8 4 ∧
       w.extractLsb' 12 4 &&& r.mask.extractLsb' 12 4 = r.value.extractLsb' 12 4 ∧
       w.extractLsb' 16 4 &&& r.mask.extractLsb' 16 4 = r.value.extractLsb' 16 4 ∧
       (fieldF w && fieldF r.mask) = fieldF r.value ∧
       w.extractLsb' 21 11 &&& r.mask.extractLsb' 21 11 = r.value.extractLsb' 21 11) := by
  simp only [OpcodeRow.holds, beq_iff_eq, ← BitVec.extractLsb'_and]
  constructor
  · intro h
    refine ⟨by rw [h], by rw [h], by rw [h], by rw [h], ?_, by rw [h]⟩
    rw [← h]; simp only [fieldF, BitVec.getLsbD_and]
  · rintro ⟨h0, h1, h2, h3, h4, h5⟩
    refine word_ext h0 h1 h2 h3 ?_ h5
    apply BitVec.eq_of_getLsbD_eq
    intro i hi
    obtain rfl : i = 0 := by omega
    simpa [fieldF] using h4

@[simp] theorem and_ones_8 (x : BitVec 8) : x &&& 255#8 = x := BitVec.and_allOnes

@[simp] theorem and_ones_4 (x : BitVec 4) : x &&& 15#4 = x := BitVec.and_allOnes

@[simp] theorem and_ones_11 (x : BitVec 11) : x &&& 2047#11 = x := BitVec.and_allOnes

/-- A nibble is even when its bit 0 is 0 (30_encoding.md R112). -/
theorem isEven_nibble (x : BitVec 4) : x &&& 1#4 = 0#4 ↔ RegNum.isEven x.toFin = true := by
  revert x; decide

theorem nibble_zero (x : BitVec 4) : x = 0#4 ↔ (x.toFin : RegNum) = 0 := by revert x; decide

theorem even_rd (w : Word32) : RegNum.isEven (fieldRd w) = true ↔ w.extractLsb' 8 4 &&& 1#4 = 0#4 :=
  (isEven_nibble _).symm

theorem even_rs (w : Word32) : RegNum.isEven (fieldRs w) = true ↔ w.extractLsb' 12 4 &&& 1#4 = 0#4 :=
  (isEven_nibble _).symm

theorem even_rt (w : Word32) : RegNum.isEven (fieldRt w) = true ↔ w.extractLsb' 16 4 &&& 1#4 = 0#4 :=
  (isEven_nibble _).symm

theorem zero_rd (w : Word32) : fieldRd w = 0 ↔ w.extractLsb' 8 4 = 0#4 := (nibble_zero _).symm

theorem zero_rs (w : Word32) : fieldRs w = 0 ↔ w.extractLsb' 12 4 = 0#4 := (nibble_zero _).symm

theorem zero_rt (w : Word32) : fieldRt w = 0 ↔ w.extractLsb' 16 4 = 0#4 := (nibble_zero _).symm

/-! ### The rows as conditions on the fields (30_encoding.md R115) -/

theorem holds_MRED (w : Word32) :
    OpcodeRow.holds ⟨.MRED, 0x00000001#32, 0xFFEF00FF#32⟩ w = true ↔
      (fieldRes w = 0#11 ∧ fieldOp w = 0x01#8 ∧
        fieldRt w = 0) := by
  simp only [holds_iff, fieldOp, fieldRes, fieldF, BitVec.reduceExtractLsb',
    BitVec.reduceGetLsb, and_ones_8, and_ones_4, and_ones_11, BitVec.and_zero, Bool.and_false,
    zero_rt]
  tauto

theorem holds_MADD (w : Word32) :
    OpcodeRow.holds ⟨.MADD, 0x00000002#32, 0xFFE000FF#32⟩ w = true ↔
      (fieldRes w = 0#11 ∧ fieldOp w = 0x02#8) := by
  simp only [holds_iff, fieldOp, fieldRes, fieldF, BitVec.reduceExtractLsb',
    BitVec.reduceGetLsb, and_ones_8, and_ones_11, BitVec.and_zero, Bool.and_false]
  tauto

theorem holds_MSUB (w : Word32) :
    OpcodeRow.holds ⟨.MSUB, 0x00000003#32, 0xFFE000FF#32⟩ w = true ↔
      (fieldRes w = 0#11 ∧ fieldOp w = 0x03#8) := by
  simp only [holds_iff, fieldOp, fieldRes, fieldF, BitVec.reduceExtractLsb',
    BitVec.reduceGetLsb, and_ones_8, and_ones_11, BitVec.and_zero, Bool.and_false]
  tauto

theorem holds_MMUL (w : Word32) :
    OpcodeRow.holds ⟨.MMUL, 0x00000004#32, 0xFFE000FF#32⟩ w = true ↔
      (fieldRes w = 0#11 ∧ fieldOp w = 0x04#8) := by
  simp only [holds_iff, fieldOp, fieldRes, fieldF, BitVec.reduceExtractLsb',
    BitVec.reduceGetLsb, and_ones_8, and_ones_11, BitVec.and_zero, Bool.and_false]
  tauto

theorem holds_MINV (w : Word32) :
    OpcodeRow.holds ⟨.MINV, 0x00000005#32, 0xFFEF00FF#32⟩ w = true ↔
      (fieldRes w = 0#11 ∧ fieldOp w = 0x05#8 ∧
        fieldRt w = 0) := by
  simp only [holds_iff, fieldOp, fieldRes, fieldF, BitVec.reduceExtractLsb',
    BitVec.reduceGetLsb, and_ones_8, and_ones_4, and_ones_11, BitVec.and_zero, Bool.and_false,
    zero_rt]
  tauto

theorem holds_PCHK (w : Word32) :
    OpcodeRow.holds ⟨.PCHK, 0x00000010#32, 0xFFFF1FFF#32⟩ w = true ↔
      (fieldRes w = 0#11 ∧ fieldOp w = 0x10#8 ∧
        fieldF w = false ∧ fieldRt w = 0 ∧ fieldRd w = 0 ∧ RegNum.isEven (fieldRs w)) := by
  simp only [holds_iff, fieldOp, fieldRes, fieldF, BitVec.reduceExtractLsb',
    BitVec.reduceGetLsb, and_ones_8, and_ones_4, and_ones_11, Bool.and_true, even_rs, zero_rd,
    zero_rt]
  tauto

theorem holds_PNEG (w : Word32) :
    OpcodeRow.holds ⟨.PNEG, 0x00000011#32, 0xFFFF11FF#32⟩ w = true ↔
      (fieldRes w = 0#11 ∧ fieldOp w = 0x11#8 ∧
        fieldF w = false ∧ fieldRt w = 0 ∧ RegNum.isEven (fieldRd w) ∧ RegNum.isEven (fieldRs w)) := by
  simp only [holds_iff, fieldOp, fieldRes, fieldF, BitVec.reduceExtractLsb',
    BitVec.reduceGetLsb, and_ones_8, and_ones_4, and_ones_11, Bool.and_true, even_rd, even_rs,
    zero_rt]
  tauto

theorem holds_PADD (w : Word32) :
    OpcodeRow.holds ⟨.PADD, 0x00000012#32, 0xFFF111FF#32⟩ w = true ↔
      (fieldRes w = 0#11 ∧ fieldOp w = 0x12#8 ∧
        fieldF w = false ∧ RegNum.isEven (fieldRd w) ∧ RegNum.isEven (fieldRs w) ∧ RegNum.isEven (fieldRt w)) := by
  simp only [holds_iff, fieldOp, fieldRes, fieldF, BitVec.reduceExtractLsb',
    BitVec.reduceGetLsb, and_ones_8, and_ones_11, Bool.and_true, even_rd, even_rs, even_rt]
  tauto

theorem holds_PDBL (w : Word32) :
    OpcodeRow.holds ⟨.PDBL, 0x00000013#32, 0xFFFF11FF#32⟩ w = true ↔
      (fieldRes w = 0#11 ∧ fieldOp w = 0x13#8 ∧
        fieldF w = false ∧ fieldRt w = 0 ∧ RegNum.isEven (fieldRd w) ∧ RegNum.isEven (fieldRs w)) := by
  simp only [holds_iff, fieldOp, fieldRes, fieldF, BitVec.reduceExtractLsb',
    BitVec.reduceGetLsb, and_ones_8, and_ones_4, and_ones_11, Bool.and_true, even_rd, even_rs,
    zero_rt]
  tauto

theorem holds_PMUL (w : Word32) :
    OpcodeRow.holds ⟨.PMUL, 0x00000014#32, 0xFFF011FF#32⟩ w = true ↔
      (fieldRes w = 0#11 ∧ fieldOp w = 0x14#8 ∧
        fieldF w = false ∧ RegNum.isEven (fieldRd w) ∧ RegNum.isEven (fieldRs w)) := by
  simp only [holds_iff, fieldOp, fieldRes, fieldF, BitVec.reduceExtractLsb',
    BitVec.reduceGetLsb, and_ones_8, and_ones_11, BitVec.and_zero, Bool.and_true, even_rd,
    even_rs]
  tauto

theorem holds_PSER (w : Word32) :
    OpcodeRow.holds ⟨.PSER, 0x00000020#32, 0xFFEF1FFF#32⟩ w = true ↔
      (fieldRes w = 0#11 ∧ fieldOp w = 0x20#8 ∧
        fieldRt w = 0 ∧ fieldRd w = 0 ∧ RegNum.isEven (fieldRs w)) := by
  simp only [holds_iff, fieldOp, fieldRes, fieldF, BitVec.reduceExtractLsb',
    BitVec.reduceGetLsb, and_ones_8, and_ones_4, and_ones_11, Bool.and_false, even_rs, zero_rd,
    zero_rt]
  tauto

theorem holds_PPAR (w : Word32) :
    OpcodeRow.holds ⟨.PPAR, 0x00000021#32, 0xFFFFF1FF#32⟩ w = true ↔
      (fieldRes w = 0#11 ∧ fieldOp w = 0x21#8 ∧
        fieldF w = false ∧ fieldRt w = 0 ∧ fieldRs w = 0 ∧ RegNum.isEven (fieldRd w)) := by
  simp only [holds_iff, fieldOp, fieldRes, fieldF, BitVec.reduceExtractLsb',
    BitVec.reduceGetLsb, and_ones_8, and_ones_4, and_ones_11, Bool.and_true, even_rd, zero_rs,
    zero_rt]
  tauto

theorem holds_CFG (w : Word32) :
    OpcodeRow.holds ⟨.CFG, 0x00000030#32, 0xFFFFFFFF#32⟩ w = true ↔
      (fieldRes w = 0#11 ∧ fieldOp w = 0x30#8 ∧
        fieldF w = false ∧ fieldRt w = 0 ∧ fieldRs w = 0 ∧ fieldRd w = 0) := by
  simp only [holds_iff, fieldOp, fieldRes, fieldF, BitVec.reduceExtractLsb',
    BitVec.reduceGetLsb, and_ones_8, and_ones_4, and_ones_11, Bool.and_true, zero_rd, zero_rs,
    zero_rt]
  tauto

/-- The decoder written out by opcode: which fields a command needs 0 or even (30_encoding.md R115). -/
def decodeFields (op : BitVec 8) (f : Bool) (rt rs rd : RegNum) : Option Instr :=
  match op.toNat with
  | 0x01 => if rt = 0 then some (.mred (modSelOf f) rd rs) else none
  | 0x02 => some (.madd (modSelOf f) rd rs rt)
  | 0x03 => some (.msub (modSelOf f) rd rs rt)
  | 0x04 => some (.mmul (modSelOf f) rd rs rt)
  | 0x05 => if rt = 0 then some (.minv (modSelOf f) rd rs) else none
  | 0x10 => if f = false ∧ rt = 0 ∧ rd = 0 ∧ RegNum.isEven rs then some (.pchk rs) else none
  | 0x11 => if f = false ∧ rt = 0 ∧ RegNum.isEven rd ∧ RegNum.isEven rs then some (.pneg rd rs) else none
  | 0x12 =>
    if f = false ∧ RegNum.isEven rd ∧ RegNum.isEven rs ∧ RegNum.isEven rt then some (.padd rd rs rt)
    else none
  | 0x13 => if f = false ∧ rt = 0 ∧ RegNum.isEven rd ∧ RegNum.isEven rs then some (.pdbl rd rs) else none
  | 0x14 => if f = false ∧ RegNum.isEven rd ∧ RegNum.isEven rs then some (.pmul rd rs rt) else none
  | 0x20 => if rt = 0 ∧ rd = 0 ∧ RegNum.isEven rs then some (.pser (formOf f) rs) else none
  | 0x21 => if f = false ∧ rt = 0 ∧ rs = 0 ∧ RegNum.isEven rd then some (.ppar rd) else none
  | 0x30 => if f = false ∧ rt = 0 ∧ rs = 0 ∧ rd = 0 then some .cfg else none
  | _ => none

theorem op_toNat {x : BitVec 8} {n : Nat} (hn : n < 256) : x.toNat = n ↔ x = BitVec.ofNat 8 n := by
  rw [← BitVec.toNat_inj, BitVec.toNat_ofNat, Nat.mod_eq_of_lt (by omega)]

/-- A row as a decidable condition. -/
theorem holds_eq_decide {r : OpcodeRow} {w : Word32} {P : Prop} [Decidable P]
    (h : r.holds w = true ↔ P) : r.holds w = decide P := by
  by_cases hp : P
  · simp [hp, h.mpr hp]
  · simpa [hp] using mt h.mp hp

/-- The table decoder is the decoder written out by opcode (30_encoding.md R115 to R117). -/
theorem decode_eq (w : Word32) :
    decode w =
      if fieldRes w = 0#11 then decodeFields (fieldOp w) (fieldF w) (fieldRt w) (fieldRs w) (fieldRd w)
      else none := by
  simp only [decode, opcodeTable, List.find?_cons, List.find?_nil,
    holds_eq_decide (holds_MRED w), holds_eq_decide (holds_MADD w), holds_eq_decide (holds_MSUB w),
    holds_eq_decide (holds_MMUL w), holds_eq_decide (holds_MINV w), holds_eq_decide (holds_PCHK w),
    holds_eq_decide (holds_PNEG w), holds_eq_decide (holds_PADD w), holds_eq_decide (holds_PDBL w),
    holds_eq_decide (holds_PMUL w), holds_eq_decide (holds_PSER w), holds_eq_decide (holds_PPAR w),
    holds_eq_decide (holds_CFG w)]
  by_cases hres : fieldRes w = 0#11
  · simp only [hres, true_and, if_true]
    generalize fieldOp w = op
    by_cases hop : op ∈ [0x01#8, 0x02#8, 0x03#8, 0x04#8, 0x05#8, 0x10#8, 0x11#8, 0x12#8, 0x13#8, 0x14#8,
        0x20#8, 0x21#8, 0x30#8]
    · simp only [List.mem_cons, List.not_mem_nil, or_false] at hop
      rcases hop with rfl | rfl | rfl | rfl | rfl | rfl | rfl | rfl | rfl | rfl | rfl | rfl | rfl
      all_goals
        simp only [decodeFields, BitVec.reduceToNat, BitVec.reduceEq, false_and, true_and, decide_false,
          decide_true]
      all_goals first
        | rfl
        | (split_ifs with hc
           · rw [decide_eq_true hc]; rfl
           · rw [decide_eq_false hc]; rfl)
    · have hnone : decodeFields op (fieldF w) (fieldRt w) (fieldRs w) (fieldRd w) = none := by
        unfold decodeFields
        split <;> first
          | rfl
          | (rename_i he
             obtain rfl := (op_toNat (by omega)).mp he
             simp at hop)
      rw [hnone]
      simp only [List.mem_cons, List.not_mem_nil, or_false, not_or] at hop
      obtain ⟨h1, h2, h3, h4, h5, h6, h7, h8, h9, h10, h11, h12, h13⟩ := hop
      simp [h1, h2, h3, h4, h5, h6, h7, h8, h9, h10, h11, h12, h13]
  · simp [hres]

/-- A word that matches a row decodes to the row's command with the word's fields (30_encoding.md R115, R116). -/
theorem decode_of_row {r : OpcodeRow} {w : Word32} (hr : r ∈ opcodeTable) (h : r.holds w = true) :
    decode w = some (instrOf r.name w) := by
  simp only [opcodeTable, List.mem_cons, List.not_mem_nil, or_false] at hr
  rw [decode_eq]
  rcases hr with rfl | rfl | rfl | rfl | rfl | rfl | rfl | rfl | rfl | rfl | rfl | rfl | rfl
  all_goals
    simp only [holds_MRED, holds_MADD, holds_MSUB, holds_MMUL, holds_MINV, holds_PCHK, holds_PNEG,
      holds_PADD, holds_PDBL, holds_PMUL, holds_PSER, holds_PPAR, holds_CFG] at h
    simp [h, decodeFields, instrOf]

/-! ### The encoder's fields (30_encoding.md R111) -/

theorem pack_bit (f : Bool) (rt rs rd : RegNum) (op : BitVec 8) (i : Nat) :
    (packFields f rt rs rd op).getLsbD i =
      if i < 8 then op.getLsbD i
      else if i < 12 then (BitVec.ofNat 4 rd.val).getLsbD (i - 8)
      else if i < 16 then (BitVec.ofNat 4 rs.val).getLsbD (i - 12)
      else if i < 20 then (BitVec.ofNat 4 rt.val).getLsbD (i - 16)
      else if i < 21 then f else false := by
  simp only [packFields, BitVec.getLsbD_append, BitVec.getLsbD_zero]
  simp only [Nat.sub_sub, Nat.reduceAdd]
  split_ifs <;> first
    | rfl
    | omega
    | (obtain rfl : i = 20 := by omega
       simp)

theorem fieldOp_pack (f : Bool) (rt rs rd : RegNum) (op : BitVec 8) :
    fieldOp (packFields f rt rs rd op) = op := by
  apply BitVec.eq_of_getLsbD_eq
  intro i hi
  simp only [fieldOp, BitVec.getLsbD_extractLsb', pack_bit, hi, decide_true, Bool.true_and]
  rw [if_pos (by omega)]; congr 1; omega

theorem fieldF_pack (f : Bool) (rt rs rd : RegNum) (op : BitVec 8) :
    fieldF (packFields f rt rs rd op) = f := by
  rw [fieldF, pack_bit, if_neg (by omega), if_neg (by omega), if_neg (by omega), if_neg (by omega),
    if_pos (by omega)]

theorem fieldRes_pack (f : Bool) (rt rs rd : RegNum) (op : BitVec 8) :
    fieldRes (packFields f rt rs rd op) = 0#11 := by
  apply BitVec.eq_of_getLsbD_eq
  intro i hi
  simp only [fieldRes, BitVec.getLsbD_extractLsb', pack_bit, BitVec.getLsbD_zero]
  repeat rw [if_neg (by omega)]
  simp

theorem toFin_ofNat (r : RegNum) : ((BitVec.ofNat 4 r.val).toFin : RegNum) = r := by
  revert r; decide

theorem fieldRd_pack (f : Bool) (rt rs rd : RegNum) (op : BitVec 8) :
    fieldRd (packFields f rt rs rd op) = rd := by
  have h : (packFields f rt rs rd op).extractLsb' 8 4 = BitVec.ofNat 4 rd.val := by
    apply BitVec.eq_of_getLsbD_eq
    intro i hi
    simp only [BitVec.getLsbD_extractLsb', pack_bit, hi, decide_true, Bool.true_and]
    rw [if_neg (by omega), if_pos (by omega)]; congr 1; omega
  rw [fieldRd, h, toFin_ofNat]

theorem fieldRs_pack (f : Bool) (rt rs rd : RegNum) (op : BitVec 8) :
    fieldRs (packFields f rt rs rd op) = rs := by
  have h : (packFields f rt rs rd op).extractLsb' 12 4 = BitVec.ofNat 4 rs.val := by
    apply BitVec.eq_of_getLsbD_eq
    intro i hi
    simp only [BitVec.getLsbD_extractLsb', pack_bit, hi, decide_true, Bool.true_and]
    rw [if_neg (by omega), if_neg (by omega), if_pos (by omega)]; congr 1; omega
  rw [fieldRs, h, toFin_ofNat]

theorem fieldRt_pack (f : Bool) (rt rs rd : RegNum) (op : BitVec 8) :
    fieldRt (packFields f rt rs rd op) = rt := by
  have h : (packFields f rt rs rd op).extractLsb' 16 4 = BitVec.ofNat 4 rt.val := by
    apply BitVec.eq_of_getLsbD_eq
    intro i hi
    simp only [BitVec.getLsbD_extractLsb', pack_bit, hi, decide_true, Bool.true_and]
    rw [if_neg (by omega), if_neg (by omega), if_neg (by omega), if_pos (by omega)]
    congr 1; omega
  rw [fieldRt, h, toFin_ofNat]

/-- A packed word decodes by its fields. -/
theorem decode_pack (f : Bool) (rt rs rd : RegNum) (op : BitVec 8) :
    decode (packFields f rt rs rd op) = decodeFields op f rt rs rd := by
  rw [decode_eq, fieldRes_pack, fieldOp_pack, fieldF_pack, fieldRt_pack, fieldRs_pack, fieldRd_pack,
    if_pos rfl]

/-- A word with its reserved bits zero is the packing of its fields. -/
theorem pack_fields {w : Word32} (h : fieldRes w = 0#11) :
    packFields (fieldF w) (fieldRt w) (fieldRs w) (fieldRd w) (fieldOp w) = w := by
  have key : ∀ w' : Word32, ∀ lo, w.extractLsb' lo 4 = w'.extractLsb' lo 4 ↔
      ((w.extractLsb' lo 4).toFin : RegNum) = (w'.extractLsb' lo 4).toFin := by
    intro w' lo
    generalize w.extractLsb' lo 4 = a
    generalize w'.extractLsb' lo 4 = b
    revert a b; decide
  refine (word_ext (fieldOp_pack _ _ _ _ _).symm ((key _ 8).mpr (fieldRd_pack _ _ _ _ _).symm)
    ((key _ 12).mpr (fieldRs_pack _ _ _ _ _).symm) ((key _ 16).mpr (fieldRt_pack _ _ _ _ _).symm)
    ?_ (h.trans (fieldRes_pack _ _ _ _ _).symm)).symm
  apply BitVec.eq_of_getLsbD_eq
  intro i hi
  obtain rfl : i = 0 := by omega
  rw [BitVec.getLsbD_extractLsb', BitVec.getLsbD_extractLsb']
  exact congrArg _ (fieldF_pack (fieldF w) (fieldRt w) (fieldRs w) (fieldRd w) (fieldOp w)).symm

end Sys2Proof
end

