-- ==== Sys2Proof/Laws/State.lean ====
section
/-! SUPPORT. One lemma per field per update of State, true by rfl: no proof unfolds a record update. -/

namespace Sys2Proof.Machine

variable (s : State)

/-! ### issue -/

@[simp] theorem issue_data (v : Word32) : (issue v s).data = s.data := rfl
@[simp] theorem issue_ctrl (v : Word32) : (issue v s).ctrl = s.ctrl := rfl
@[simp] theorem issue_status (v : Word32) :
    (issue v s).status = { s.status with done := false } := rfl
@[simp] theorem issue_cmd (v : Word32) : (issue v s).cmd = v := rfl
@[simp] theorem issue_latch (v : Word32) : (issue v s).latch = some (snapshot v s) := rfl
@[simp] theorem issue_script (v : Word32) : (issue v s).script = s.script := rfl
@[simp] theorem issue_replies (v : Word32) : (issue v s).replies = s.replies := rfl

/-! ### writeReg -/

@[simp] theorem writeReg_data (r : RegNum) (v : Nat) :
    (writeReg r v s).data = { s.data with w := s.data.w.set r (BitVec.ofNat 256 v) } := rfl
@[simp] theorem writeReg_ctrl (r : RegNum) (v : Nat) : (writeReg r v s).ctrl = s.ctrl := rfl
@[simp] theorem writeReg_status (r : RegNum) (v : Nat) : (writeReg r v s).status = s.status := rfl
@[simp] theorem writeReg_cmd (r : RegNum) (v : Nat) : (writeReg r v s).cmd = s.cmd := rfl
@[simp] theorem writeReg_latch (r : RegNum) (v : Nat) : (writeReg r v s).latch = s.latch := rfl
@[simp] theorem writeReg_script (r : RegNum) (v : Nat) : (writeReg r v s).script = s.script := rfl
@[simp] theorem writeReg_replies (r : RegNum) (v : Nat) :
    (writeReg r v s).replies = s.replies := rfl

/-! ### writePair -/

@[simp] theorem writePair_ctrl (r : RegNum) (pt : Point) : (writePair r pt s).ctrl = s.ctrl := rfl
@[simp] theorem writePair_status (r : RegNum) (pt : Point) :
    (writePair r pt s).status = s.status := rfl
@[simp] theorem writePair_cmd (r : RegNum) (pt : Point) : (writePair r pt s).cmd = s.cmd := rfl
@[simp] theorem writePair_latch (r : RegNum) (pt : Point) :
    (writePair r pt s).latch = s.latch := rfl
@[simp] theorem writePair_script (r : RegNum) (pt : Point) :
    (writePair r pt s).script = s.script := rfl
@[simp] theorem writePair_replies (r : RegNum) (pt : Point) :
    (writePair r pt s).replies = s.replies := rfl

/-! ### writeBuffer -/

@[simp] theorem writeBuffer_data (bs : List Byte) :
    (writeBuffer bs s).data = { s.data with buf := bufferOf bs, bufLen := BitVec.ofNat 7 bs.length } := rfl
@[simp] theorem writeBuffer_ctrl (bs : List Byte) : (writeBuffer bs s).ctrl = s.ctrl := rfl
@[simp] theorem writeBuffer_status (bs : List Byte) : (writeBuffer bs s).status = s.status := rfl
@[simp] theorem writeBuffer_cmd (bs : List Byte) : (writeBuffer bs s).cmd = s.cmd := rfl
@[simp] theorem writeBuffer_latch (bs : List Byte) : (writeBuffer bs s).latch = s.latch := rfl
@[simp] theorem writeBuffer_script (bs : List Byte) : (writeBuffer bs s).script = s.script := rfl
@[simp] theorem writeBuffer_replies (bs : List Byte) : (writeBuffer bs s).replies = s.replies := rfl

/-! ### writeOnCurve -/

@[simp] theorem writeOnCurve_data (b : Bool) : (writeOnCurve b s).data = s.data := rfl
@[simp] theorem writeOnCurve_ctrl (b : Bool) : (writeOnCurve b s).ctrl = s.ctrl := rfl
@[simp] theorem writeOnCurve_status (b : Bool) :
    (writeOnCurve b s).status = { s.status with onCurve := b } := rfl
@[simp] theorem writeOnCurve_cmd (b : Bool) : (writeOnCurve b s).cmd = s.cmd := rfl
@[simp] theorem writeOnCurve_latch (b : Bool) : (writeOnCurve b s).latch = s.latch := rfl
@[simp] theorem writeOnCurve_script (b : Bool) : (writeOnCurve b s).script = s.script := rfl
@[simp] theorem writeOnCurve_replies (b : Bool) : (writeOnCurve b s).replies = s.replies := rfl

/-! ### lockConfig -/

@[simp] theorem lockConfig_data : (lockConfig s).data = s.data := rfl
@[simp] theorem lockConfig_ctrl : (lockConfig s).ctrl = s.ctrl := rfl
@[simp] theorem lockConfig_status :
    (lockConfig s).status = { s.status with cfgLocked := true } := rfl
@[simp] theorem lockConfig_cmd : (lockConfig s).cmd = s.cmd := rfl
@[simp] theorem lockConfig_latch : (lockConfig s).latch = s.latch := rfl
@[simp] theorem lockConfig_script : (lockConfig s).script = s.script := rfl
@[simp] theorem lockConfig_replies : (lockConfig s).replies = s.replies := rfl

/-! ### finish -/

@[simp] theorem finish_data (code : BitVec 4) : (finish code s).data = s.data := rfl
@[simp] theorem finish_ctrl (code : BitVec 4) : (finish code s).ctrl = s.ctrl := rfl
@[simp] theorem finish_status (code : BitVec 4) :
    (finish code s).status = { s.status with done := true, err := code } := rfl
@[simp] theorem finish_cmd (code : BitVec 4) : (finish code s).cmd = s.cmd := rfl
@[simp] theorem finish_latch (code : BitVec 4) : (finish code s).latch = none := rfl
@[simp] theorem finish_script (code : BitVec 4) : (finish code s).script = s.script := rfl
@[simp] theorem finish_replies (code : BitVec 4) : (finish code s).replies = s.replies := rfl

/-! ### writeCtrl -/

@[simp] theorem writeCtrl_data (v : Word32) : (writeCtrl v s).data = s.data := rfl
@[simp] theorem writeCtrl_ctrl (v : Word32) :
    (writeCtrl v s).ctrl = { doneIe := v.getLsbD 0, strictSqrt := v.getLsbD 1 } := rfl
@[simp] theorem writeCtrl_status (v : Word32) : (writeCtrl v s).status = s.status := rfl
@[simp] theorem writeCtrl_cmd (v : Word32) : (writeCtrl v s).cmd = s.cmd := rfl
@[simp] theorem writeCtrl_latch (v : Word32) : (writeCtrl v s).latch = s.latch := rfl
@[simp] theorem writeCtrl_script (v : Word32) : (writeCtrl v s).script = s.script := rfl
@[simp] theorem writeCtrl_replies (v : Word32) : (writeCtrl v s).replies = s.replies := rfl

/-! ### writeStatus -/

@[simp] theorem writeStatus_data (v : Word32) : (writeStatus v s).data = s.data := rfl
@[simp] theorem writeStatus_ctrl (v : Word32) : (writeStatus v s).ctrl = s.ctrl := rfl
@[simp] theorem writeStatus_status (v : Word32) :
    (writeStatus v s).status = { s.status with
        done := s.status.done && !v.getLsbD 1
        wign := s.status.wign && !v.getLsbD 4
        cmdOvr := s.status.cmdOvr && !v.getLsbD 5 } := rfl
@[simp] theorem writeStatus_cmd (v : Word32) : (writeStatus v s).cmd = s.cmd := rfl
@[simp] theorem writeStatus_latch (v : Word32) : (writeStatus v s).latch = s.latch := rfl
@[simp] theorem writeStatus_script (v : Word32) : (writeStatus v s).script = s.script := rfl
@[simp] theorem writeStatus_replies (v : Word32) : (writeStatus v s).replies = s.replies := rfl

/-! ### setWign -/

@[simp] theorem setWign_data : (setWign s).data = s.data := rfl
@[simp] theorem setWign_ctrl : (setWign s).ctrl = s.ctrl := rfl
@[simp] theorem setWign_status : (setWign s).status = { s.status with wign := true } := rfl
@[simp] theorem setWign_cmd : (setWign s).cmd = s.cmd := rfl
@[simp] theorem setWign_latch : (setWign s).latch = s.latch := rfl
@[simp] theorem setWign_script : (setWign s).script = s.script := rfl
@[simp] theorem setWign_replies : (setWign s).replies = s.replies := rfl

/-! ### setCmdOvr -/

@[simp] theorem setCmdOvr_data : (setCmdOvr s).data = s.data := rfl
@[simp] theorem setCmdOvr_ctrl : (setCmdOvr s).ctrl = s.ctrl := rfl
@[simp] theorem setCmdOvr_status : (setCmdOvr s).status = { s.status with cmdOvr := true } := rfl
@[simp] theorem setCmdOvr_cmd : (setCmdOvr s).cmd = s.cmd := rfl
@[simp] theorem setCmdOvr_latch : (setCmdOvr s).latch = s.latch := rfl
@[simp] theorem setCmdOvr_script : (setCmdOvr s).script = s.script := rfl
@[simp] theorem setCmdOvr_replies : (setCmdOvr s).replies = s.replies := rfl

/-! ### resetEngine -/

@[simp] theorem resetEngine_data : (resetEngine s).data = Data.reset := rfl
@[simp] theorem resetEngine_ctrl : (resetEngine s).ctrl = State.reset.ctrl := rfl
@[simp] theorem resetEngine_status : (resetEngine s).status = State.reset.status := rfl
@[simp] theorem resetEngine_cmd : (resetEngine s).cmd = 0#32 := rfl
@[simp] theorem resetEngine_latch : (resetEngine s).latch = none := rfl
@[simp] theorem resetEngine_script : (resetEngine s).script = s.script := rfl
@[simp] theorem resetEngine_replies : (resetEngine s).replies = s.replies := rfl

/-! ### BUSY, and the operands of a command in flight -/

@[simp] theorem busy_none (h : s.latch = none) : s.busy = false := by simp [State.busy, h]

@[simp] theorem busy_some {l : Latch} (h : s.latch = some l) : s.busy = true := by
  simp [State.busy, h]

theorem busy_eq_true_iff : s.busy = true ↔ ∃ l, s.latch = some l := by
  simp [State.busy, Option.isSome_iff_exists]

theorem busy_eq_false_iff : s.busy = false ↔ s.latch = none := by simp [State.busy]

/-- A command in flight reads LATCH (60_exceptions.md R262). -/
@[simp] theorem operands_some {l : Latch} (h : s.latch = some l) : s.operands = l := by
  simp [State.operands, h]

/-- A command just issued reads what the registers hold (60_exceptions.md R262). -/
@[simp] theorem operands_issue (v : Word32) : (issue v s).operands = snapshot v s := rfl

@[simp] theorem busy_issue (v : Word32) : (issue v s).busy = true := rfl

@[simp] theorem busy_finish (code : BitVec 4) : (finish code s).busy = false := rfl

@[simp] theorem snapshot_word (v : Word32) : (snapshot v s).word = v := rfl

@[simp] theorem snapshot_data (v : Word32) : (snapshot v s).data = s.data := rfl

@[simp] theorem snapshot_cfgLocked (v : Word32) : (snapshot v s).cfgLocked = s.status.cfgLocked := rfl

@[simp] theorem snapshot_strictSqrt (v : Word32) : (snapshot v s).strictSqrt = s.ctrl.strictSqrt := rfl

/-! ### Dropped and accepted data writes -/

@[simp] theorem dataWrite_blocked (d : Data) : dataWrite true d s = setWign s := rfl

@[simp] theorem dataWrite_accepted (d : Data) : dataWrite false d s = { s with data := d } := rfl

@[simp] theorem cmdWrite_idle (v : Word32) (h : s.busy = false) : cmdWrite v s = issue v s := by
  simp [cmdWrite, h]

@[simp] theorem cmdWrite_busy (v : Word32) (h : s.busy = true) : cmdWrite v s = setCmdOvr s := by
  simp [cmdWrite, h]

/-! ### The registers of a pair -/

theorem regX_ne_regY (j : PairNum) : regX j ≠ regY j := by
  simp only [regX, regY, ne_eq, Fin.mk.injEq]; omega

theorem regX_pairOf {r : RegNum} (h : RegNum.isEven r = true) : regX (pairOf r) = r := by
  simp only [RegNum.isEven, beq_iff_eq] at h
  simp only [regX, pairOf]; apply Fin.ext; simp only; omega

/-- What W[q] holds after W[r] <- v. -/
theorem writeReg_w (r q : RegNum) (v : Nat) :
    (writeReg r v s).data.w[q] = if q = r then BitVec.ofNat 256 v else s.data.w[q] := by
  simp only [writeReg, Fin.getElem_fin, Vector.getElem_set]
  by_cases h : q = r
  · simp [h]
  · have h' : (r : Nat) ≠ q := fun e => h (Fin.ext e.symm)
    simp [h, h']

/-- What W[q] holds after a pair is written. -/
theorem writePair_w (r q : RegNum) (pt : Point) :
    (writePair r pt s).data.w[q] =
      if q = regY (pairOf r) then BitVec.ofNat 256 pt.2
      else if q = regX (pairOf r) then BitVec.ofNat 256 pt.1 else s.data.w[q] := by
  simp only [writePair, writeReg_w]

/-- A pair write changes no field of Data but the W registers. -/
theorem writePair_data (r : RegNum) (pt : Point) :
    (writePair r pt s).data = { s.data with w := (writePair r pt s).data.w } := rfl

end Sys2Proof.Machine
end

