-- ==== Sys2Proof/Laws/Exec.lean ====
section
/-! SUPPORT. What a completion can do (60_exceptions.md R263, R266): every command answers a next state,
that of `complete` on the outcome its rule gives for LATCH, and `complete` changes only what its outcome
names. -/

namespace Sys2Proof.Machine

/-- The outcome of a command as a function of LATCH: `exec(LATCH)` of 60_exceptions.md R263. -/
def commandOutcome (i : Instr) (o : Latch) : Except Err Effect :=
  match i with
  | .mred ms rd rs => cmdMred o ms rd rs
  | .madd ms rd rs rt => cmdMadd o ms rd rs rt
  | .msub ms rd rs rt => cmdMsub o ms rd rs rt
  | .mmul ms rd rs rt => cmdMmul o ms rd rs rt
  | .minv ms rd rs => cmdMinv o ms rd rs
  | .pchk rs => cmdPchk o rs
  | .pneg rd rs => cmdPneg o rd rs
  | .padd rd rs rt => cmdPadd o rd rs rt
  | .pdbl rd rs => cmdPdbl o rd rs
  | .pmul rd rs rt => cmdPmul o rd rs rt
  | .pser c rs => cmdPser o c rs
  | .ppar rd => cmdPpar o rd
  | .cfg => cmdCfg o

/-- Every command completes: the one equation that says what exec does. -/
theorem exec_eq (i : Instr) (s : State) :
    exec i s = .next (complete (commandOutcome i s.operands) s) := by cases i <;> rfl

/-! ### complete -/

@[simp] theorem complete_error (e : Err) (s : State) :
    complete (.error e) s = completedWith e.code s := rfl

@[simp] theorem complete_ok (e : Effect) (s : State) :
    complete (.ok e) s = finish 0#4 (applyEffect e s) := rfl

theorem code_ne_zero (e : Err) : e.code ≠ 0#4 := by cases e <;> decide

theorem code_le_ten (e : Err) : e.code.toNat ≤ 10 := by cases e <;> decide

/-- Distinct conditions have distinct codes (60_exceptions.md R267). -/
theorem code_injective {e e' : Err} (h : e.code = e'.code) : e = e' := by
  cases e <;> cases e' <;> first | rfl | exact absurd h (by decide)

@[simp] theorem completedWith_data (code : BitVec 4) (s : State) :
    (completedWith code s).data = s.data := rfl

@[simp] theorem completedWith_status (code : BitVec 4) (s : State) :
    (completedWith code s).status = { s.status with done := true, err := code } := rfl

/-- What applying an effect leaves alone, whatever the effect. -/
theorem applyEffect_kept (e : Effect) (s : State) :
    (applyEffect e s).ctrl = s.ctrl ∧ (applyEffect e s).cmd = s.cmd ∧
    (applyEffect e s).script = s.script ∧ (applyEffect e s).replies = s.replies ∧
    (applyEffect e s).latch = s.latch ∧ (applyEffect e s).data.modulus = s.data.modulus ∧
    (applyEffect e s).data.curveP = s.data.curveP ∧ (applyEffect e s).data.curveA = s.data.curveA ∧
    (applyEffect e s).data.curveB = s.data.curveB ∧
    (applyEffect e s).status.done = s.status.done ∧ (applyEffect e s).status.wign = s.status.wign ∧
    (applyEffect e s).status.cmdOvr = s.status.cmdOvr ∧
    (applyEffect e s).status.err = s.status.err := by
  cases e <;> simp [applyEffect, writePair]

/-- What a completion leaves alone, whatever its outcome: CTRL, CMD, MOD and the curve parameters, WIGN
and CMD_OVR, and the host's side (60_exceptions.md R263). -/
theorem complete_kept (r : Except Err Effect) (s : State) :
    (complete r s).ctrl = s.ctrl ∧ (complete r s).cmd = s.cmd ∧
    (complete r s).script = s.script ∧ (complete r s).replies = s.replies ∧
    (complete r s).data.modulus = s.data.modulus ∧ (complete r s).data.curveP = s.data.curveP ∧
    (complete r s).data.curveA = s.data.curveA ∧ (complete r s).data.curveB = s.data.curveB ∧
    (complete r s).status.wign = s.status.wign ∧
    (complete r s).status.cmdOvr = s.status.cmdOvr := by
  cases r with
  | error e => simp [completedWith]
  | ok e =>
    have h := applyEffect_kept e s
    simp only [complete_ok, finish_ctrl, finish_cmd, finish_script, finish_replies, finish_data,
      finish_status]
    tauto

/-- A completion ends the BUSY period and sets DONE (60_exceptions.md R263). -/
theorem complete_done (r : Except Err Effect) (s : State) :
    (complete r s).latch = none ∧ (complete r s).status.done = true := by
  cases r <;> simp [completedWith]

/-- ERR after a completion: 0 or the error's code (60_exceptions.md R263). -/
theorem complete_err (r : Except Err Effect) (s : State) :
    (complete r s).status.err = match r with | .ok _ => 0#4 | .error e => e.code := by
  cases r <;> simp

/-- A completion with ERR ≠ 0 wrote nothing (60_exceptions.md R266). -/
theorem complete_err_ne_zero {r : Except Err Effect} {s : State}
    (h : (complete r s).status.err ≠ 0#4) :
    complete r s = completedWith (complete r s).status.err s := by
  cases r with
  | error e => rfl
  | ok e => simp at h

theorem completedOk_finish (e : Effect) (s : State) :
    CompletedOk s (finish 0#4 (applyEffect e s)) := by
  have h := applyEffect_kept e s
  constructor <;> simp only [finish_ctrl, finish_cmd, finish_script, finish_replies, finish_status,
    finish_latch] <;> tauto

/-- The frame of a one-register command (40_modular.md R140). -/
theorem writesOnly_reg (rd : RegNum) (v : Nat) (s : State) :
    WritesOnly [rd] s (complete (.ok (.reg rd v)) s) := by
  refine ⟨completedOk_finish _ _, ⟨fun r hr => ?_, rfl, rfl, rfl, rfl, rfl, rfl⟩, rfl, rfl⟩
  simp only [List.mem_singleton] at hr
  simp only [complete_ok, finish_data, applyEffect, writeReg_w, hr, if_false]

/-- The frame of a command that writes a pair (41_curve.md R174). -/
theorem writesOnly_pair (rd : RegNum) (pt : Point) (s : State) :
    WritesOnly (pairRegs rd) s (complete (.ok (.pair rd pt)) s) := by
  refine ⟨completedOk_finish _ _, ⟨fun r hr => ?_, rfl, rfl, rfl, rfl, rfl, rfl⟩, rfl, rfl⟩
  simp only [pairRegs, List.mem_cons, List.not_mem_nil, or_false, not_or] at hr
  simp only [complete_ok, finish_data, applyEffect, writePair_w, hr.1, hr.2, if_false]

/-- The value a one-register command leaves in its destination. -/
theorem complete_reg_w (rd : RegNum) (v : Nat) (s : State) :
    (complete (.ok (.reg rd v)) s).data.w[rd] = BitVec.ofNat 256 v := by
  simp only [complete_ok, finish_data, applyEffect, writeReg_w, if_true]

/-- The values a pair command leaves in its destination. -/
theorem complete_pair_w (rd : RegNum) (pt : Point) (s : State) :
    (complete (.ok (.pair rd pt)) s).data.w[regX (pairOf rd)] = BitVec.ofNat 256 pt.1 ∧
    (complete (.ok (.pair rd pt)) s).data.w[regY (pairOf rd)] = BitVec.ofNat 256 pt.2 := by
  simp only [complete_ok, finish_data, applyEffect, writePair_w, regX_ne_regY, if_true, if_false,
    and_self]

/-! ### The tests a command makes before its own -/

@[simp] theorem requireLocked_locked {o : Latch} (h : o.cfgLocked = true) (r : Except Err Effect) :
    requireLocked o r = r := by simp [requireLocked, h]

@[simp] theorem requireLocked_unlocked {o : Latch} (h : o.cfgLocked = false) (r : Except Err Effect) :
    requireLocked o r = .error .config := by simp [requireLocked, h]

theorem modularCommand_zero {o : Latch} {ms : ModSel} (h : o.selected ms = 0) (rd : RegNum)
    (f : Nat → Except Err Nat) : modularCommand o ms rd f = .error .modulus := by
  simp [modularCommand, Latch.select, h]

theorem modularCommand_pos {o : Latch} {ms : ModSel} (h : o.selected ms ≠ 0) (rd : RegNum)
    (f : Nat → Except Err Nat) :
    modularCommand o ms rd f = (f (o.selected ms)).map fun v => .reg rd v := by
  simp [modularCommand, Latch.select, h]

theorem selected_le (o : Latch) (ms : ModSel) : o.selected ms ≤ 2 ^ 256 := by
  cases ms
  · exact o.data.modulus.isLt.le
  · exact o.data.curveP.isLt.le

theorem curve_p_le (o : Latch) : o.curve.p ≤ 2 ^ 256 := o.data.curveP.isLt.le

end Sys2Proof.Machine
end

