-- ==== Sys2Proof/Laws/PerInstr.lean ====
section
/-! SUPPORT. One lemma per constructor of Instr: the word of a well-formed command matches its own row of
the opcode map (30_encoding.md R115). -/

namespace Sys2Proof

/-- The row of the opcode map a command belongs to (30_encoding.md R115). -/
def Instr.mnemonic : Instr → Mnemonic
  | .mred _ _ _ => .MRED
  | .madd _ _ _ _ => .MADD
  | .msub _ _ _ _ => .MSUB
  | .mmul _ _ _ _ => .MMUL
  | .minv _ _ _ => .MINV
  | .pchk _ => .PCHK
  | .pneg _ _ => .PNEG
  | .padd _ _ _ => .PADD
  | .pdbl _ _ => .PDBL
  | .pmul _ _ _ => .PMUL
  | .pser _ _ => .PSER
  | .ppar _ => .PPAR
  | .cfg => .CFG

end Sys2Proof

namespace Sys2Proof.Laws.RowMatches

/-- The encoding of a well-formed command matches the row of its mnemonic. -/
def Statement (i : Instr) : Prop :=
  i.wf = true → ∃ r ∈ opcodeTable, r.name = i.mnemonic ∧ r.holds (encode i) = true

theorem mred (ms : ModSel) (rd rs : RegNum) : Statement (.mred ms rd rs) := fun _ =>
  ⟨⟨.MRED, 0x00000001#32, 0xFFEF00FF#32⟩, by simp [opcodeTable], rfl, by
    rw [holds_MRED]; simp [encode, fieldRes_pack, fieldOp_pack, fieldRt_pack]⟩

theorem madd (ms : ModSel) (rd rs rt : RegNum) : Statement (.madd ms rd rs rt) := fun _ =>
  ⟨⟨.MADD, 0x00000002#32, 0xFFE000FF#32⟩, by simp [opcodeTable], rfl, by
    rw [holds_MADD]; simp [encode, fieldRes_pack, fieldOp_pack]⟩

theorem msub (ms : ModSel) (rd rs rt : RegNum) : Statement (.msub ms rd rs rt) := fun _ =>
  ⟨⟨.MSUB, 0x00000003#32, 0xFFE000FF#32⟩, by simp [opcodeTable], rfl, by
    rw [holds_MSUB]; simp [encode, fieldRes_pack, fieldOp_pack]⟩

theorem mmul (ms : ModSel) (rd rs rt : RegNum) : Statement (.mmul ms rd rs rt) := fun _ =>
  ⟨⟨.MMUL, 0x00000004#32, 0xFFE000FF#32⟩, by simp [opcodeTable], rfl, by
    rw [holds_MMUL]; simp [encode, fieldRes_pack, fieldOp_pack]⟩

theorem minv (ms : ModSel) (rd rs : RegNum) : Statement (.minv ms rd rs) := fun _ =>
  ⟨⟨.MINV, 0x00000005#32, 0xFFEF00FF#32⟩, by simp [opcodeTable], rfl, by
    rw [holds_MINV]; simp [encode, fieldRes_pack, fieldOp_pack, fieldRt_pack]⟩

theorem pchk (rs : RegNum) : Statement (.pchk rs) := fun h =>
  ⟨⟨.PCHK, 0x00000010#32, 0xFFFF1FFF#32⟩, by simp [opcodeTable], rfl, by
    rw [holds_PCHK]
    simpa [encode, fieldRes_pack, fieldOp_pack, fieldF_pack, fieldRt_pack, fieldRd_pack, fieldRs_pack,
      Instr.wf] using h⟩

theorem pneg (rd rs : RegNum) : Statement (.pneg rd rs) := fun h =>
  ⟨⟨.PNEG, 0x00000011#32, 0xFFFF11FF#32⟩, by simp [opcodeTable], rfl, by
    rw [holds_PNEG]
    simpa [encode, fieldRes_pack, fieldOp_pack, fieldF_pack, fieldRt_pack, fieldRd_pack, fieldRs_pack,
      Instr.wf] using h⟩

theorem padd (rd rs rt : RegNum) : Statement (.padd rd rs rt) := fun h =>
  ⟨⟨.PADD, 0x00000012#32, 0xFFF111FF#32⟩, by simp [opcodeTable], rfl, by
    rw [holds_PADD]
    simpa [encode, fieldRes_pack, fieldOp_pack, fieldF_pack, fieldRt_pack, fieldRd_pack, fieldRs_pack,
      Instr.wf, and_assoc] using h⟩

theorem pdbl (rd rs : RegNum) : Statement (.pdbl rd rs) := fun h =>
  ⟨⟨.PDBL, 0x00000013#32, 0xFFFF11FF#32⟩, by simp [opcodeTable], rfl, by
    rw [holds_PDBL]
    simpa [encode, fieldRes_pack, fieldOp_pack, fieldF_pack, fieldRt_pack, fieldRd_pack, fieldRs_pack,
      Instr.wf] using h⟩

theorem pmul (rd rs rt : RegNum) : Statement (.pmul rd rs rt) := fun h =>
  ⟨⟨.PMUL, 0x00000014#32, 0xFFF011FF#32⟩, by simp [opcodeTable], rfl, by
    rw [holds_PMUL]
    simpa [encode, fieldRes_pack, fieldOp_pack, fieldF_pack, fieldRd_pack, fieldRs_pack, Instr.wf]
      using h⟩

theorem pser (c : Form) (rs : RegNum) : Statement (.pser c rs) := fun h =>
  ⟨⟨.PSER, 0x00000020#32, 0xFFEF1FFF#32⟩, by simp [opcodeTable], rfl, by
    rw [holds_PSER]
    simpa [encode, fieldRes_pack, fieldOp_pack, fieldRt_pack, fieldRd_pack, fieldRs_pack, Instr.wf]
      using h⟩

theorem ppar (rd : RegNum) : Statement (.ppar rd) := fun h =>
  ⟨⟨.PPAR, 0x00000021#32, 0xFFFFF1FF#32⟩, by simp [opcodeTable], rfl, by
    rw [holds_PPAR]
    simpa [encode, fieldRes_pack, fieldOp_pack, fieldF_pack, fieldRt_pack, fieldRs_pack, fieldRd_pack,
      Instr.wf] using h⟩

theorem cfg : Statement .cfg := fun _ =>
  ⟨⟨.CFG, 0x00000030#32, 0xFFFFFFFF#32⟩, by simp [opcodeTable], rfl, by decide⟩

end Sys2Proof.Laws.RowMatches
end

