-- ==== Sys2Proof/Laws/Step.lean ====
section
/-! SUPPORT. Everything one step can do: the inversion lemma that proofs about steps cite instead of
unfolding `step` (60_exceptions.md R260). -/

namespace Sys2Proof.Machine

/-- The script left after an engine step: the rest after a scripted completion, or none. -/
inductive EngineTurn (s : State) : List Event → Prop where
  | scripted {rest : List Event} (h : s.script = .complete :: rest) : EngineTurn s rest
  | unscripted (h : s.script = []) : EngineTurn s []

/-- The outcomes of one step. -/
inductive StepCase (s : State) : Host.Outcome State Fault Refusal → Prop where
  | idle (hs : s.script = []) (hl : s.latch = none) : StepCase s (.next s)
  | notEnabled {rest : List Event} (hs : s.script = .complete :: rest) (hl : s.latch = none) :
      StepCase s (.fault .completionWhileIdle)
  | illegal {rest : List Event} {l : Latch} (ht : EngineTurn s rest) (hl : s.latch = some l)
      (hd : decode l.word = none) :
      StepCase s (.next (completedWith Err.illegal.code { s with script := rest }))
  | command {rest : List Event} {l : Latch} {i : Instr} (ht : EngineTurn s rest)
      (hl : s.latch = some l) (hd : decode l.word = some i) :
      StepCase s (.next (complete (commandOutcome i l) { s with script := rest }))
  | read {rest : List Event} {off : Offset} (hs : s.script = .hostRead off :: rest) :
      StepCase s (.next { s with script := rest, replies := hostRead off s :: s.replies })
  | write {rest : List Event} {off : Offset} {v : Word32} (hs : s.script = .hostWrite off v :: rest) :
      StepCase s (.next (hostWrite off v { s with script := rest }))
  | reset {rest : List Event} (hs : s.script = .reset :: rest) :
      StepCase s (.next (resetEngine { s with script := rest }))

/-- A read's value depends on the engine's state only, not on the script. -/
theorem hostRead_script (off : Offset) (s : State) (rest : List Event) :
    hostRead off { s with script := rest } = hostRead off s := rfl

/-- With a command in flight the engine step is the completion of its word. -/
theorem completion_some {s : State} {l : Latch} (hl : s.latch = some l) :
    completion s = completeWord l.word s := by simp only [completion, hl]

/-- With no command in flight there is no engine step (60_exceptions.md R260). -/
theorem completion_none {s : State} (hl : s.latch = none) :
    completion s = .fault .completionWhileIdle := by simp only [completion, hl]

theorem completion_case {s : State} {rest : List Event} (ht : EngineTurn s rest) {l : Latch}
    (hl : s.latch = some l) : StepCase s (completion { s with script := rest }) := by
  have hl' : ({ s with script := rest } : State).latch = some l := hl
  rw [completion_some hl', completeWord]
  cases hd : decode l.word with
  | none => exact .illegal ht hl hd
  | some i =>
    simp only [exec_eq, operands_some _ hl']
    exact .command ht hl hd

theorem step_nil {s : State} (hs : s.script = []) : step s = unscripted s := by
  simp only [step, nextStep, hs]

theorem step_cons {s : State} {e : Event} {rest : List Event} (hs : s.script = e :: rest) :
    step s = runEvent e { s with script := rest } := by simp only [step, nextStep, hs]

/-- What a step can do, once and for all. -/
theorem step_case (s : State) : StepCase s (step s) := by
  cases hs : s.script with
  | nil =>
    have hsame : ({ s with script := [] } : State) = s := by cases s; simp_all
    rw [step_nil hs, unscripted]
    rcases Option.eq_none_or_eq_some s.latch with hl | ⟨l, hl⟩
    · rw [busy_none s hl]; exact .idle hs hl
    · have := completion_case (.unscripted hs) hl
      rw [hsame] at this
      rw [busy_some s hl]; exact this
  | cons e rest =>
    rw [step_cons hs]
    cases e with
    | hostRead off => exact .read hs
    | hostWrite off v => exact .write hs
    | reset => exact .reset hs
    | complete =>
      rcases Option.eq_none_or_eq_some s.latch with hl | ⟨l, hl⟩
      · rw [runEvent, completion_none (s := { s with script := rest }) hl]; exact .notEnabled hs hl
      · exact completion_case (.scripted hs) hl

/-- A step never refuses (no instruction is left unmodelled). -/
theorem step_ne_refused (s : State) (r : Refusal) : step s ≠ .refused r := by
  intro h
  have := step_case s
  rw [h] at this
  cases this

end Sys2Proof.Machine
end

