-- ==== Sys2Proof/Laws/Window.lean ====
section
/-! SUPPORT. The window (20_memory.md R71 to R80): words and bytes of the registers read after they are
written, the address map, and what a host write can change. -/

namespace Sys2Proof.Machine

/-! ### Words of a 256-bit register (20_memory.md R73) -/

theorem getWord_toNat (r : Word) (k : Fin 8) :
    (getWord r k).toNat = r.toNat / 2 ^ (32 * k.val) % 2 ^ 32 := by
  simp [getWord, BitVec.extractLsb'_toNat, Nat.shiftRight_eq_div_pow]

theorem putWord_getLsbD (r : Word) (k : Fin 8) (v : Word32) (i : Nat) (hi : i < 256) :
    (putWord r k v).getLsbD i =
      if 32 * k.val ≤ i ∧ i < 32 * k.val + 32 then v.getLsbD (i - 32 * k.val) else r.getLsbD i := by
  have hones : ∀ j, (0xFFFFFFFF#256).getLsbD j = decide (j < 32) := by
    intro j
    by_cases hj : j < 256
    · have : ∀ j : Fin 256, (0xFFFFFFFF#256).getLsbD j = decide (j.val < 32) := by
        decide +kernel
      exact this ⟨j, hj⟩
    · rw [BitVec.getLsbD_of_ge _ _ (by omega)]; simp; omega
  simp only [putWord, BitVec.getLsbD_or, BitVec.getLsbD_and, BitVec.getLsbD_not,
    BitVec.getLsbD_shiftLeft, BitVec.getLsbD_setWidth, hones, hi, decide_true, Bool.true_and]
  by_cases h1 : i < 32 * k.val
  · have : ¬(32 * k.val ≤ i ∧ i < 32 * k.val + 32) := by omega
    simp [h1, this]
  · by_cases h2 : i < 32 * k.val + 32
    · have h3 : i - 32 * k.val < 32 := by omega
      have h4 : i - 32 * k.val < 256 := by omega
      have h5 : 32 * k.val ≤ i := by omega
      simp [h1, h2, h3, h4, h5]
    · have h3 : ¬(i - 32 * k.val < 32) := by omega
      have h4 : v.getLsbD (i - 32 * k.val) = false := BitVec.getLsbD_of_ge _ _ (by omega)
      simp [h1, h2, h3, h4]

theorem getWord_getLsbD (r : Word) (k : Fin 8) (i : Nat) (hi : i < 32) :
    (getWord r k).getLsbD i = r.getLsbD (32 * k.val + i) := by
  simp [getWord, hi]

theorem getWord_putWord_same (r : Word) (k : Fin 8) (v : Word32) : getWord (putWord r k v) k = v := by
  apply BitVec.eq_of_getLsbD_eq
  intro i hi
  rw [getWord_getLsbD _ _ _ hi, putWord_getLsbD _ _ _ _ (by omega)]
  simp [hi]

theorem getWord_putWord_ne (r : Word) {k j : Fin 8} (v : Word32) (h : j ≠ k) :
    getWord (putWord r k v) j = getWord r j := by
  apply BitVec.eq_of_getLsbD_eq
  intro i hi
  rw [getWord_getLsbD _ _ _ hi, getWord_getLsbD _ _ _ hi, putWord_getLsbD _ _ _ _ (by omega)]
  have hne : (j : Nat) ≠ k := fun e => h (Fin.ext e)
  have : ¬(32 * k.val ≤ 32 * j.val + i ∧ 32 * j.val + i < 32 * k.val + 32) := by omega
  rw [if_neg this]

theorem Data.get_put_same (d : Data) (v : Word) (r : DataReg) : (d.put v r).get r = v := by
  cases r <;> simp [Data.get, Data.put]

theorem Data.get_put_ne (d : Data) (v : Word) {r q : DataReg} (h : q ≠ r) :
    (d.put v r).get q = d.get q := by
  cases r with
  | w i =>
    cases q with
    | w j =>
      have hij : (i : Nat) ≠ j := fun e => h (by rw [Fin.ext e])
      simp [Data.get, Data.put, hij]
    | _ => rfl
  | _ => cases q <;> first | rfl | exact absurd rfl h

/-! ### Bytes of BUF (20_memory.md R74) -/

theorem getBufWord_byte (buf : Vector Byte 65) (w : Fin 17) (i : Fin 4) :
    (getBufWord buf w).extractLsb' (8 * i.val) 8 = buf[4 * w.val + i.val]?.getD 0#8 := by
  apply BitVec.eq_of_getLsbD_eq
  intro j hj
  obtain ⟨i, hi⟩ := i
  simp only [BitVec.getLsbD_extractLsb', getBufWord, BitVec.getLsbD_append, hj, decide_true,
    Bool.true_and]
  interval_cases i <;> simp only [Nat.reduceMul, Nat.add_zero, Nat.zero_add]
  · simp only [hj, if_true]
  · rw [if_neg (by omega), if_pos (by omega)]; congr 1; omega
  · rw [if_neg (by omega), if_neg (by omega), if_pos (by omega)]; congr 1; omega
  · rw [if_neg (by omega), if_neg (by omega), if_neg (by omega)]; congr 1; omega

theorem putBufWord_get (buf : Vector Byte 65) (w : Fin 17) (v : Word32) (n : Nat) (hn : n < 65) :
    (putBufWord buf w v)[n] =
      if n / 4 = w.val then v.extractLsb' (8 * (n % 4)) 8 else buf[n] := by
  simp only [putBufWord, Vector.getElem_setIfInBounds]
  have hdiv := Nat.div_add_mod n 4
  have hlt := Nat.mod_lt n (show 0 < 4 by omega)
  generalize hq : n / 4 = q at hdiv ⊢
  generalize hr : n % 4 = r at hdiv hlt ⊢
  interval_cases r <;> split_ifs <;> first | rfl | omega

/-! ### The address map (20_memory.md R71, R72) -/

theorem wordIndex_lt (off : Offset) : wordIndex off < 1024 := by
  have := off.isLt; simp only [wordIndex]; omega

theorem sameWord_iff (off off' : Offset) : SameWord off off' ↔ wordIndex off = wordIndex off' := by
  have key : ∀ o : Offset, (o.extractLsb' 2 10).toNat = wordIndex o := by
    intro o
    have := o.isLt
    simp only [BitVec.extractLsb'_toNat, Nat.shiftRight_eq_div_pow, wordIndex]
    omega
  rw [SameWord, ← BitVec.toNat_inj, key, key]

theorem windowTarget_congr {off off' : Offset} (h : SameWord off off') :
    windowTarget off = windowTarget off' := by
  rw [windowTarget, windowTarget, (sameWord_iff _ _).mp h]

theorem windowTarget_offset (r : DataReg) (k : Fin 8) : windowTarget (r.offset k) = .data r k := by
  cases r with
  | w i => revert i k; decide +kernel
  | _ => revert k; decide +kernel

theorem windowTarget_bufOffset (w : Fin 17) : windowTarget (bufOffset w) = .buf w := by
  revert w; decide +kernel

/-- The word index of a target that is not reserved. -/
def Target.index : Target → Nat
  | .id => 0
  | .ctrl => 1
  | .status => 2
  | .cmd => 3
  | .bufLen => 4
  | .buf w => 0x40 + w.val
  | .data r k => r.base / 4 + k.val
  | .reserved => 0

theorem index_targetOf (n : Nat) (hn : n < 1024) :
    targetOf n = .reserved ∨ (targetOf n).index = n := by
  have : ∀ n : Fin 1024, targetOf n.val = .reserved ∨ (targetOf n.val).index = n.val := by
    decide +kernel
  exact this ⟨n, hn⟩

/-- Two different words of the window are different targets, or reserved. -/
theorem windowTarget_ne {off off' : Offset} (h : ¬SameWord off off')
    (hr : windowTarget off ≠ .reserved) : windowTarget off' ≠ windowTarget off := by
  intro he
  rcases index_targetOf _ (wordIndex_lt off) with h1 | h1
  · exact hr h1
  · rcases index_targetOf _ (wordIndex_lt off') with h2 | h2
    · exact hr (he ▸ h2)
    · exact h ((sameWord_iff _ _).mpr (by rw [← h1, ← h2]; exact congrArg Target.index he.symm))

/-! ### What a host write can change -/

/-- A host write changes neither the script nor the replies, and completes nothing: a command in flight
stays in flight (20_memory.md R79). -/
theorem hostWrite_kept (off : Offset) (v : Word32) (s : State) :
    (hostWrite off v s).script = s.script ∧ (hostWrite off v s).replies = s.replies ∧
    (hostWrite off v s).status.onCurve = s.status.onCurve ∧
    (hostWrite off v s).status.cfgLocked = s.status.cfgLocked ∧
    (hostWrite off v s).status.err = s.status.err := by
  simp only [hostWrite, cmdWrite, dataWrite]
  split <;> (try split) <;> simp

/-- During a BUSY period no host write reaches the data registers, LATCH or the CMD readback
(20_memory.md R79). -/
theorem hostWrite_busy (off : Offset) (v : Word32) (s : State) (hb : s.busy = true) :
    (hostWrite off v s).data = s.data ∧ (hostWrite off v s).latch = s.latch ∧
    (hostWrite off v s).cmd = s.cmd := by
  simp only [hostWrite, cmdWrite, dataWrite, hb, Bool.true_or, if_true]
  split <;> simp

/-- While the curve is locked no host write reaches the curve parameters (20_memory.md R80). -/
theorem hostWrite_locked (off : Offset) (v : Word32) (s : State)
    (hl : s.status.cfgLocked = true) :
    (hostWrite off v s).data.curveP = s.data.curveP ∧
    (hostWrite off v s).data.curveA = s.data.curveA ∧
    (hostWrite off v s).data.curveB = s.data.curveB := by
  simp only [hostWrite, cmdWrite, dataWrite, hl, Bool.and_true]
  split <;> (try split) <;> simp_all
  all_goals
    rename_i r k _ hcond
    cases r <;> simp_all [DataReg.isCurve, Data.put]

end Sys2Proof.Machine
end

