-- ==== Sys2Proof/Tests/Slice0.lean ====
section
/-! SUPPORT. The model's own tests. Every expected value is one of the spec's: the encodings and examples of
30_encoding.md R115 and R120 and the vectors of 95_test_vectors.md. The last part shows, for each statement
with premises, a state and operands that meet all of them. -/

namespace Sys2Proof.Tests

open Sys2Proof.Machine

-- One test after the other: many kernel evaluations at once would ask for many threads.
set_option Elab.async false

/-! ### WellFormed: an ill-formed term for each check, refused -/

theorem test_wf_pchk_odd : Instr.wf (.pchk 1) = false := by decide
theorem test_wf_pneg_rd : Instr.wf (.pneg 1 0) = false := by decide
theorem test_wf_pneg_rs : Instr.wf (.pneg 0 1) = false := by decide
theorem test_wf_padd_rd : Instr.wf (.padd 5 0 2) = false := by decide
theorem test_wf_padd_rs : Instr.wf (.padd 4 1 2) = false := by decide
theorem test_wf_padd_rt : Instr.wf (.padd 4 0 3) = false := by decide
theorem test_wf_pdbl_rd : Instr.wf (.pdbl 3 0) = false := by decide
theorem test_wf_pdbl_rs : Instr.wf (.pdbl 2 15) = false := by decide
theorem test_wf_pmul_rd : Instr.wf (.pmul 7 0 9) = false := by decide
theorem test_wf_pmul_rs : Instr.wf (.pmul 6 1 9) = false := by decide
theorem test_wf_pser_odd : Instr.wf (.pser .compressed 7) = false := by decide
theorem test_wf_ppar_odd : Instr.wf (.ppar 9) = false := by decide
theorem test_wf_pmul_odd_scalar : Instr.wf (.pmul 6 0 9) = true := by decide

/-! ### Decoding: a word written out field by field from 30_encoding.md R111 and R115
(res, f, rt, rs, rd, op), for every constructor -/

theorem test_decode_mred :
    decode 0b00000000000_1_0000_1111_0001_00000001#32 = some (.mred .curveP 1 15) := by decide
theorem test_decode_madd :
    decode 0b00000000000_0_0010_0001_0011_00000010#32 = some (.madd .mod 3 1 2) := by decide
theorem test_decode_msub :
    decode 0b00000000000_1_0000_0010_0000_00000011#32 = some (.msub .curveP 0 2 0) := by decide
theorem test_decode_mmul :
    decode 0b00000000000_1_1111_1111_1111_00000100#32 = some (.mmul .curveP 15 15 15) := by decide
theorem test_decode_minv :
    decode 0b00000000000_0_0000_0100_0101_00000101#32 = some (.minv .mod 5 4) := by decide
theorem test_decode_pchk :
    decode 0b00000000000_0_0000_1000_0000_00010000#32 = some (.pchk 8) := by decide
theorem test_decode_pneg :
    decode 0b00000000000_0_0000_0000_0010_00010001#32 = some (.pneg 2 0) := by decide
theorem test_decode_padd :
    decode 0b00000000000_0_0010_0000_0100_00010010#32 = some (.padd 4 0 2) := by decide
theorem test_decode_pdbl :
    decode 0b00000000000_0_0000_0000_0010_00010011#32 = some (.pdbl 2 0) := by decide
theorem test_decode_pmul :
    decode 0b00000000000_0_1001_0000_0110_00010100#32 = some (.pmul 6 0 9) := by decide
theorem test_decode_pser :
    decode 0b00000000000_1_0000_0110_0000_00100000#32 = some (.pser .compressed 6) := by decide
theorem test_decode_ppar :
    decode 0b00000000000_0_0000_0000_1000_00100001#32 = some (.ppar 8) := by decide
theorem test_decode_cfg :
    decode 0b00000000000_0_0000_0000_0000_00110000#32 = some .cfg := by decide

/-- The illegal words of 95_test_vectors.md section 2. -/
theorem test_decode_illegal :
    [0x00000000#32, 0x00000006#32, 0x00000015#32, 0x000000FF#32, 0x00200004#32, 0x80000001#32,
      0x00100010#32, 0x00000110#32, 0x00001010#32, 0x00100030#32, 0x00000130#32, 0x00010001#32,
      0x00091614#32, 0x00090714#32, 0x00006120#32, 0x00000921#32, 0x00001021#32, 0x00EEEE12#32,
      0x00021412#32, 0x00120412#32].all (fun w => (decode w).isNone) = true := by decide

theorem test_encode_examples :
    encode (.mmul .curveP 3 1 2) = 0x00121304#32 ∧ encode (.pmul 6 0 9) = 0x00090614#32 ∧
    encode (.pser .compressed 6) = 0x00106020#32 ∧ encode (.padd 14 14 14) = 0x000EEE12#32 := by decide

theorem test_decode_table_word : decodeTableWord 32 0x00000213 = some (.pdbl 2 0) := by decide

/-! ### States for the tests -/

/-- A list of W registers loaded. -/
def loadRegs : List (RegNum × Nat) → State → State
  | [], s => s
  | (r, v) :: rest, s => loadRegs rest (writeReg r v s)

/-- Straight out of reset with MOD and some W registers loaded. -/
def withMod (m : Nat) (regs : List (RegNum × Nat)) : State :=
  loadRegs regs { State.reset with data := { Data.reset with modulus := BitVec.ofNat 256 m } }

/-- A curve loaded and locked, some W registers loaded, idle. -/
def withCurve (p a b : Nat) (regs : List (RegNum × Nat)) : State :=
  loadRegs regs
    { State.reset with
      data := { Data.reset with
                curveP := BitVec.ofNat 256 p
                curveA := BitVec.ofNat 256 a
                curveB := BitVec.ofNat 256 b }
      status := { State.reset.status with cfgLocked := true } }

/-- SRC's toy curve, 95_test_vectors.md TOY. -/
def toy (regs : List (RegNum × Nat)) : State := withCurve 17 2 2 regs

/-- The curve T2 of 95_test_vectors.md, p = 23 ≡ 3 (mod 4). -/
def t2 (regs : List (RegNum × Nat)) : State := withCurve 23 0 1 regs

/-- BUF and BUF_LEN loaded. -/
def withBuf (bytes : List Byte) (s : State) : State := writeBuffer bytes s

/-- The state a command leaves (the state itself if it does not complete). -/
def after (i : Instr) (s : State) : State :=
  match exec i s with
  | .next t => t
  | .fault _ => s
  | .refused _ => s

/-- The state a step leaves (the state itself if it stops). -/
def stepped (s : State) : State :=
  match step s with
  | .next t => t
  | .fault _ => s
  | .refused _ => s

/-! ### Modular commands (95_test_vectors.md section 4) -/

theorem test_mred_full_width :
    (after (.mred .mod 2 1) (withMod 17 [(1, 2 ^ 256 - 1)])).data.w[2] = 0#256 ∧
    (after (.mred .mod 2 1) (withMod 17 [(1, 100)])).data.w[2] = 15#256 := by decide +kernel

theorem test_mred_modulus :
    (after (.mred .curveP 2 1) (withMod 17 [(1, 100), (2, 9)])).status.err = 8#4 ∧
    (after (.mred .curveP 2 1) (withMod 17 [(1, 100), (2, 9)])).data.w[2] = 9#256 := by decide +kernel

theorem test_madd_no_wrap :
    (after (.madd .mod 3 1 2) (withMod (2 ^ 256 - 1) [(1, 2 ^ 256 - 2), (2, 2 ^ 256 - 2)])).data.w[3] =
      BitVec.ofNat 256 (2 ^ 256 - 3) := by decide +kernel

theorem test_madd_same_register :
    (after (.madd .mod 1 1 1) (withMod 17 [(1, 9)])).data.w[1] = 1#256 := by decide +kernel

theorem test_msub_negative :
    (after (.msub .mod 3 1 2) (withMod 17 [(1, 3), (2, 5)])).data.w[3] = 15#256 ∧
    (after (.msub .mod 3 1 2) (withMod 17 [(1, 0), (2, 2 ^ 256 - 1)])).data.w[3] = 0#256 := by
  decide +kernel

theorem test_mmul_ordinary_residue :
    (after (.mmul .mod 3 1 2)
      (withMod (2 ^ 255 - 19) [(1, 2 ^ 256 - 1), (2, 2 ^ 256 - 1)])).data.w[3] = 1369#256 := by
  decide +kernel

theorem test_minv_values :
    (after (.minv .mod 5 4) (withMod 17 [(4, 3)])).data.w[5] = 6#256 ∧
    (after (.minv .mod 5 4) (withMod (2 ^ 256 - 1) [(4, 2 ^ 256 - 2)])).data.w[5] =
      BitVec.ofNat 256 (2 ^ 256 - 2) ∧
    (after (.minv .mod 5 4) (withMod (2 ^ 255 - 19) [(4, 2)])).data.w[5] =
      BitVec.ofNat 256 ((2 ^ 255 - 18) / 2) := by decide +kernel

theorem test_minv_errors :
    (after (.minv .mod 5 4) (withMod 0 [(4, 0)])).status.err = 8#4 ∧
    (after (.minv .mod 5 4) (withMod 1 [(4, 0)])).status.err = 1#4 ∧
    (after (.minv .mod 5 4) (withMod 17 [(4, 17)])).status.err = 2#4 ∧
    (after (.minv .mod 5 4) (withMod 1 [(4, 5)])).status.err = 5#4 := by decide +kernel

/-! ### Curve commands (95_test_vectors.md section 5) -/

theorem test_pchk :
    (after (.pchk 0) (toy [(0, 22), (1, 18)])).status.onCurve = true ∧
    (after (.pchk 0) (after (.pchk 0) (toy [(0, 5), (1, 2)]))).status.onCurve = false ∧
    (after (.pchk 0) (withMod 17 [])).status.err = 7#4 := by decide +kernel

theorem test_pneg :
    (after (.pneg 2 0) (toy [(0, 22), (1, 1)])).pair 2 = (5, 16) ∧
    (after (.pneg 2 0) (toy [(0, 5), (1, 2)])).status.err = 3#4 := by decide +kernel

theorem test_padd :
    (after (.padd 4 0 2) (toy [(0, 5), (1, 1), (2, 6), (3, 3)])).pair 4 = (10, 6) ∧
    (after (.padd 4 0 2) (toy [(0, 5), (1, 1), (2, 22), (3, 18)])).pair 4 = (6, 3) := by decide +kernel

theorem test_padd_errors :
    (after (.padd 4 0 2) (toy [(0, 5), (1, 1), (2, 5), (3, 16)])).status.err = 4#4 ∧
    (after (.padd 4 0 2) (toy [(0, 5), (1, 1), (2, 5), (3, 2)])).status.err = 3#4 ∧
    (after (.padd 4 0 2) (withCurve 4 0 0 [(2, 2)])).status.err = 2#4 ∧
    (after (.padd 4 0 2) (withCurve 2 0 1 [(1, 1), (3, 1)])).status.err = 2#4 := by decide +kernel

theorem test_pdbl :
    (after (.pdbl 2 0) (toy [(0, 6), (1, 3)])).pair 2 = (3, 1) ∧
    (after (.pdbl 2 0) (t2 [(0, 22)])).status.err = 1#4 := by decide +kernel

/-! ### Scalar multiplication (95_test_vectors.md section 6) -/

theorem test_pmul_toy :
    (after (.pmul 6 0 9) (toy [(0, 5), (1, 1), (9, 18)])).pair 6 = (5, 16) ∧
    (after (.pmul 6 0 9) (toy [(0, 5), (1, 1), (9, 2 ^ 255)])).pair 6 = (13, 7) ∧
    (after (.pmul 6 0 9) (toy [(0, 5), (1, 1), (9, 17)])).status.err = 1#4 ∧
    (after (.pmul 6 0 9) (toy [(0, 5), (1, 1), (9, 19)])).status.err = 4#4 := by decide +kernel

theorem test_pmul_secp256k1 :
    (after (.pmul 4 0 2)
      (withCurve (2 ^ 256 - 2 ^ 32 - 977) 0 7
        [(0, 0x79BE667EF9DCBBAC55A06295CE870B07029BFCDB2DCE28D959F2815B16F81798),
         (1, 0x483ADA7726A3C4655DA4FBFC0E1108A8FD17B448A68554199C47D08FFB10D4B8), (2, 3)])).pair 4 =
      (0xF9308A019258C31049344F85F89D5229B531C845836F99B08601F113BCE036F9,
       0x388F7B0F632DE8140FE337E62A37F3566500A99934C2231B6CB9FD7584B8E672) := by decide +kernel

/-! ### Codec (95_test_vectors.md section 7) -/

/-- The 31 zero bytes of a small coordinate. -/
def zeros31 : List Byte := List.replicate 31 0#8

theorem test_pser_compressed :
    (after (.pser .compressed 0) (withMod 0 [(0, 22), (1, 18)])).data.buf.toList.take 33 =
      0x02#8 :: (zeros31 ++ [0x16#8]) ∧
    (after (.pser .compressed 0) (withMod 0 [(0, 22), (1, 18)])).data.bufLen = 33#7 := by decide +kernel

theorem test_pser_uncompressed :
    (after (.pser .uncompressed 0) (withMod 0 [(0, 5), (1, 1)])).data.buf.toList =
      0x04#8 :: (zeros31 ++ [0x05#8] ++ zeros31 ++ [0x01#8]) := by decide +kernel

theorem test_ppar_decompress :
    (after (.ppar 8) (withBuf (0x03#8 :: (zeros31 ++ [2#8])) (t2 []))).pair 8 = (2, 3) ∧
    (after (.ppar 8) (withBuf (0x03#8 :: (zeros31 ++ [22#8])) (t2 []))).pair 8 = (22, 23) ∧
    (after (.ppar 8) (withBuf (0x05#8 :: (zeros31 ++ [2#8])) (t2 []))).pair 8 = (2, 3) ∧
    (after (.ppar 8) (withBuf (0x03#8 :: (zeros31 ++ [6#8])) (toy []))).pair 8 = (6, 1) := by
  decide +kernel

theorem test_ppar_lengths :
    (after (.ppar 8) (withBuf (0x04#8 :: (zeros31 ++ [2#8, 3#8])) (t2 []))).pair 8 = (2, 3) ∧
    (after (.ppar 8) (withBuf (0x04#8 :: (zeros31 ++ [2#8])) (t2 []))).pair 8 = (2, 0) ∧
    (after (.ppar 8) (withBuf (0x03#8 :: zeros31) (t2 []))).status.err = 9#4 ∧
    (after (.ppar 8) (withBuf (0x03#8 :: (zeros31 ++ [6#8]))
      (writeCtrl 2#32 (toy [])))).status.err = 10#4 := by decide +kernel

/-! ### Configuration (95_test_vectors.md section 8) -/

theorem test_cfg :
    (after .cfg (hostWrite 0x420#12 17#32 State.reset)).statusWord = 0x0000000A#32 ∧
    (after .cfg State.reset).status.err = 8#4 ∧ (after .cfg (toy [])).status.err = 7#4 := by
  decide +kernel

/-! ### The window and the steps (95_test_vectors.md sections 3 and 10) -/

theorem test_window_reads :
    hostRead 0x000#12 State.reset = 0x45430007#32 ∧ hostRead 0xFFC#12 State.reset = 0#32 ∧
    hostRead 0x200#12 (hostWrite 0x202#12 0x12345678#32 State.reset) = 0x12345678#32 ∧
    (hostWrite 0x21C#12 0x80000000#32 (hostWrite 0x202#12 0x12345678#32 State.reset)).data.w[0] =
      BitVec.ofNat 256 (2 ^ 255 + 0x12345678) := by decide +kernel

theorem test_window_buffer :
    (hostWrite 0x100#12 0x44332211#32 State.reset).data.buf.toList.take 4 =
      [0x11#8, 0x22#8, 0x33#8, 0x44#8] ∧
    hostRead 0x140#12 (hostWrite 0x140#12 0xFFFFFFAB#32 State.reset) = 0x000000AB#32 ∧
    hostRead 0x010#12 (hostWrite 0x010#12 0xFFFFFFC1#32 State.reset) = 0x00000041#32 ∧
    hostRead 0x004#12 (hostWrite 0x004#12 0xFFFFFFFF#32 State.reset) = 0x00000003#32 := by decide +kernel

/-- Program P4: the busy period of PMUL w6, w0, w9. -/
def p4Busy : State :=
  issue 0x00090614#32 { toy [(0, 5), (1, 1), (9, 3)] with ctrl := ⟨true, false⟩ }

theorem test_p4_hazards :
    p4Busy.statusWord = 0x00000009#32 ∧
    (hostWrite 0x200#12 6#32 p4Busy).statusWord = 0x00000019#32 ∧
    (hostWrite 0x200#12 6#32 p4Busy).data.w[0] = 5#256 ∧
    (hostWrite 0x00C#12 0x213#32 (hostWrite 0x200#12 6#32 p4Busy)).statusWord = 0x00000039#32 := by
  decide +kernel

theorem test_p4_completion :
    (stepped { p4Busy with script := [.complete] }).pair 6 = (10, 6) ∧
    (stepped { p4Busy with script := [.complete] }).irq = true ∧
    (stepped p4Busy).statusWord = 0x0000000A#32 := by decide +kernel

theorem test_illegal_completes :
    (stepped (issue 0x00021412#32 (toy []))).status.err = 6#4 ∧
    (stepped (issue 0x00021412#32 (toy []))).cmd = 0x00021412#32 := by decide +kernel

theorem test_fetch_word :
    (stepped ((withMod 17 [(1, 100)]).withFetchWord 32 0x00001201)).data.w[2] = 15#256 := by
  decide +kernel

/-! ### Witnesses: states and operands that meet the premises of the statements -/

theorem test_witness_reset_step :
    let s : State := { p4Busy with script := [.reset, .hostRead 0#12] }
    s.script = .reset :: [.hostRead 0#12] ∧ s.busy = true := by decide +kernel

theorem test_witness_lock_kept :
    let s : State := { toy [] with script := [.hostWrite 0x420#12 23#32] }
    (∃ t, step s = .next t) ∧ s.status.cfgLocked = true := ⟨⟨_, rfl⟩, rfl⟩

theorem test_witness_step_keeps_invariant :
    p4Busy.Inv ∧ ∃ t, step p4Busy = .next t :=
  ⟨⟨fun _ h => by cases h; exact ⟨rfl, rfl, rfl⟩, fun _ => rfl, fun _ => by decide +kernel,
    by decide +kernel, fun h => by cases h⟩, ⟨_, rfl⟩⟩

theorem test_witness_decode_encode :
    Instr.wf (.padd 14 0 2) = true ∧ decode 0x00020E12#32 = some (.padd 14 0 2) := by decide

theorem test_witness_illegal :
    IllegalWord 0x00021412#32 ∧ SameWord 0x00F#12 0x00C#12 ∧
    ({ toy [] with script := [.hostWrite 0x00F#12 0x00021412#32, .complete] } : State).busy = false := by
  refine ⟨?_, rfl, rfl⟩
  unfold IllegalWord
  decide

theorem test_witness_illegal_opcode : IllegalWord 0x00000031#32 ∧ decode 0x00000031#32 = none := by
  refine ⟨?_, by decide⟩
  unfold IllegalWord
  decide

theorem test_witness_rows : OpcodeRow.holds ⟨.CFG, 0x30#32, 0xFFFFFFFF#32⟩ 0x30#32 = true := by decide

theorem test_witness_step_runs_decoded :
    p4Busy.latch = some (snapshot 0x00090614#32 { toy [(0, 5), (1, 1), (9, 3)] with ctrl := ⟨true, false⟩ }) ∧
    decode 0x00090614#32 = some (.pmul 6 0 9) ∧ p4Busy.script = [] ∧
    ({ p4Busy with script := [.complete] } : State).script = .complete :: [] ∧
    decodeTableWord 32 0x00000030 = some .cfg := ⟨rfl, by decide, rfl, rfl, by decide⟩

theorem test_witness_issue :
    let s : State := { toy [] with script := [.hostWrite 0x00C#12 0x30#32] }
    s.busy = false ∧ SameWord 0x00C#12 0x00C#12 ∧ s.script = .hostWrite 0x00C#12 0x30#32 :: [] :=
  ⟨rfl, rfl, rfl⟩

theorem test_witness_no_partial_result :
    let s : State := { issue 0x00000213#32 (t2 [(0, 22)]) with script := [.complete] }
    s.latch = some (snapshot 0x00000213#32 (t2 [(0, 22)])) ∧ (stepped s).status.err = 1#4 := by
  decide +kernel

theorem test_witness_disabled_completion :
    let s : State := { State.reset with script := [.complete] }
    step s = .fault .completionWhileIdle ∧ s.busy = false := ⟨rfl, rfl⟩

theorem test_witness_command_completes :
    let s : State := { p4Busy with script := [.hostRead 0x2C0#12, .hostWrite 0x200#12 6#32] }
    (∀ e ∈ s.script, e ≠ .complete) ∧ s.busy = true := by
  refine ⟨?_, rfl⟩
  intro e he
  simp only [List.mem_cons, List.not_mem_nil, or_false] at he
  rcases he with rfl | rfl <;> exact fun h => by cases h

theorem test_witness_latch_only :
    let l := snapshot 0x00000021#32 (t2 [])
    let s : State := { t2 [(0, 1)] with latch := some l }
    let s' : State := { toy [(3, 1)] with latch := some l }
    s.latch = some l ∧ s'.latch = some l ∧ (∃ t, exec (.ppar 0) s = .next t) ∧
      ∃ t, exec (.ppar 0) s' = .next t := ⟨rfl, rfl, ⟨_, rfl⟩, ⟨_, rfl⟩⟩

theorem test_witness_strict_at_issue :
    let s : State :=
      { issue 0x00000821#32 (toy []) with script := [.hostWrite 0x005#12 2#32, .complete] }
    s.latch = some (snapshot 0x00000821#32 (toy [])) ∧ SameWord 0x005#12 0x004#12 :=
  ⟨rfl, rfl⟩

theorem test_witness_codes :
    ((toy []).operands.cfgLocked = true → (toy []).operands.curve.p ≠ 0) ∧
    ∃ t, exec (.padd 4 0 2) (toy []) = .next t := ⟨fun _ => by decide +kernel, ⟨_, rfl⟩⟩

theorem test_witness_unlocked : State.reset.operands.cfgLocked = false := rfl

/-- A word that no MADD w3 changes: BUF_LEN; and one that PSER changes: word 16 of BUF. -/
theorem test_witness_window_frame :
    ¬MayChange (.madd .mod 3 1 2) 0x010#12 ∧ MayChange (.pser .compressed 0) 0x140#12 := by
  constructor
  · rintro (h | ⟨r, hr, k, h⟩ | ⟨c, rs, h, -⟩)
    · revert h; unfold SameWord; decide
    · obtain rfl := List.mem_singleton.mp hr
      revert h; revert k; unfold SameWord DataReg.offset DataReg.base; decide
    · cases h
  · exact .inr (.inr ⟨.compressed, 0, rfl, .inr ⟨16, rfl⟩⟩)

theorem test_witness_on_curve_changes :
    let s : State := issue 0x00000010#32 (toy [(0, 5), (1, 1)])
    (stepped s).status.onCurve ≠ s.status.onCurve ∧ ∃ t, step s = .next t :=
  ⟨by decide +kernel, ⟨_, rfl⟩⟩

theorem test_witness_sticky :
    let s : State := { setCmdOvr (setWign State.reset) with script := [.hostWrite 0x008#12 0x30#32] }
    s.status.wign = true ∧ s.status.cmdOvr = true ∧ (stepped s).status.wign = false ∧
      (stepped s).status.cmdOvr = false := by decide +kernel

theorem test_witness_irq_rises :
    (stepped p4Busy).status.done = true ∧ p4Busy.status.done = false ∧
    (0x2#32).getLsbD 1 = true ∧ (0x2#32).getLsbD 0 = false ∧ State.reset.busy = false := by decide +kernel

theorem test_witness_reads :
    let s : State := { p4Busy with script := [.hostRead 0x00C#12, .hostRead 0x00C#12] }
    s.script = .hostRead 0x00C#12 :: .hostRead 0x00C#12 :: [] := rfl

theorem test_witness_low_bits : ∀ b, 2 ≤ b → (0x203#12).getLsbD b = (0x200#12).getLsbD b := by
  intro b hb
  by_cases h : b < 12
  · have : ∀ b : Fin 12, 2 ≤ b.val → (0x203#12).getLsbD b.val = (0x200#12).getLsbD b.val := by decide
    exact this ⟨b, h⟩ hb
  · rw [BitVec.getLsbD_of_ge _ _ (by omega), BitVec.getLsbD_of_ge _ _ (by omega)]

/-- The first and the last word of the map, and a word of a locked register that is not yet locked. -/
theorem test_witness_register_words :
    State.reset.busy = false ∧ State.reset.status.cfgLocked = false ∧
    (DataReg.w 0).offset 0 = 0x200#12 ∧ DataReg.curveB.offset 7 = 0x47C#12 ∧
    ¬SameWord 0x204#12 ((DataReg.w 0).offset 0) := by
  refine ⟨rfl, rfl, rfl, rfl, ?_⟩
  unfold SameWord; decide

theorem test_witness_buffer_words :
    4 * (16 : Fin 17).val + (0 : Fin 4).val < 65 ∧ bufOffset 16 = 0x140#12 ∧
    ¬SameWord 0x13C#12 (bufOffset 16) := by
  refine ⟨by decide, rfl, ?_⟩
  unfold SameWord; decide

theorem test_witness_reserved_edges :
    hostRead 0x014#12 p4Busy = 0#32 ∧ hostRead 0x0FF#12 p4Busy = 0#32 ∧ hostRead 0x144#12 p4Busy = 0#32 ∧
    hostRead 0x1FF#12 p4Busy = 0#32 ∧ hostRead 0x480#12 p4Busy = 0#32 ∧
    hostRead 0xFFF#12 p4Busy = 0#32 := by decide +kernel

theorem test_witness_busy_and_locked : p4Busy.busy = true ∧ p4Busy.status.cfgLocked = true := ⟨rfl, rfl⟩

theorem test_witness_modulus :
    (withMod 0 []).operands.selected .mod = 0 ∧ (withMod 17 []).operands.selected .mod ≠ 0 := by
  decide +kernel

theorem test_witness_minv :
    (withMod 17 [(4, 3)]).operands.selected .mod = 17 ∧ (withMod 17 [(4, 3)]).operands.reg 4 = 3 ∧
    Nat.gcd 3 17 = 1 ∧ Nat.gcd 4 6 ≠ 1 := by decide +kernel

theorem test_witness_pchk :
    (toy [(0, 5), (1, 1)]).operands.cfgLocked = true ∧ (toy [(0, 5), (1, 1)]).operands.curve.p ≠ 0 := by
  decide +kernel

/-- The premises about a point and the curve TOY, on it and off it. -/
theorem test_witness_holds :
    (toy [(0, 5), (1, 1)]).operands.curve = ⟨17, 2, 2⟩ ∧ (toy [(0, 5), (1, 1)]).operands.point 0 = (5, 1) ∧
    Curve.Holds ⟨17, 2, 2⟩ 5 1 ∧ ¬Curve.Holds ⟨17, 2, 2⟩ 5 2 := by
  refine ⟨by decide +kernel, by decide +kernel, ?_, ?_⟩ <;> unfold Curve.Holds <;> decide

theorem test_witness_involution :
    (toy [(0, 5), (1, 1)]).status.cfgLocked = true ∧ (toy [(0, 5), (1, 1)]).data.curveP ≠ 0#256 ∧
    (toy [(0, 5), (1, 1)]).pair 0 = (5, 1) := by decide +kernel

theorem test_witness_chord :
    let s := toy [(0, 5), (1, 1), (2, 6), (3, 3)]
    s.operands.cfgLocked = true ∧ s.operands.curve = ⟨17, 2, 2⟩ ∧ s.operands.point 0 = (5, 1) ∧
    s.operands.point 2 = (6, 3) ∧ Curve.Holds ⟨17, 2, 2⟩ 5 1 ∧ Curve.Holds ⟨17, 2, 2⟩ 6 3 ∧
    ¬Curve.SameX ⟨17, 2, 2⟩ (5, 1) (6, 3) ∧ Int.gcd ((5 : Int) - 6) 17 = 1 := by
  refine ⟨rfl, by decide +kernel, by decide +kernel, by decide +kernel, ?_, ?_, ?_, by decide⟩
  · unfold Curve.Holds; decide
  · unfold Curve.Holds; decide
  · unfold Curve.SameX; decide

theorem test_witness_tangent :
    let s := toy [(0, 5), (1, 1), (2, 22), (3, 18)]
    s.operands.cfgLocked = true ∧ s.operands.curve = ⟨17, 2, 2⟩ ∧ s.operands.point 0 = (5, 1) ∧
    s.operands.point 2 = (22, 18) ∧ Curve.Holds ⟨17, 2, 2⟩ 5 1 ∧ Int.gcd (2 * (1 : Int)) 17 = 1 ∧
    1 % 17 ≠ 0 ∧ Curve.SameX ⟨17, 2, 2⟩ (5, 1) (22, 18) ∧ Curve.SameY ⟨17, 2, 2⟩ (5, 1) (22, 18) := by
  refine ⟨rfl, by decide +kernel, by decide +kernel, by decide +kernel, ?_, by decide, by decide, ?_, ?_⟩
  · unfold Curve.Holds; decide
  · unfold Curve.SameX; decide
  · unfold Curve.SameY; decide

/-- Operands for each clause of the errors of addition. -/
theorem test_witness_addition_errors :
    (Curve.Holds ⟨17, 2, 2⟩ 5 16 ∧ Curve.SameX ⟨17, 2, 2⟩ (5, 1) (5, 16) ∧
      ¬Curve.SameY ⟨17, 2, 2⟩ (5, 1) (5, 16)) ∧
    (Curve.Holds ⟨23, 0, 1⟩ 22 0 ∧ 0 % 23 = 0) ∧
    (Curve.Holds ⟨2, 0, 1⟩ 0 1 ∧ 1 % 2 ≠ 0 ∧ Int.gcd (2 * (1 : Int)) 2 ≠ 1) ∧
    (Curve.Holds ⟨4, 0, 0⟩ 0 0 ∧ Curve.Holds ⟨4, 0, 0⟩ 2 0 ∧ ¬Curve.SameX ⟨4, 0, 0⟩ (0, 0) (2, 0) ∧
      Int.gcd ((0 : Int) - 2) 4 ≠ 1) := by
  unfold Curve.Holds Curve.SameX Curve.SameY; decide

theorem test_witness_results_on_curve :
    let s := toy [(0, 5), (1, 1), (9, 3)]
    s.operands.curve.p ≠ 0 ∧ (after (.pmul 6 0 9) s).status.err = 0#4 := by decide +kernel

theorem test_witness_pmul_result :
    let s := toy [(0, 5), (1, 1), (9, 2)]
    s.operands.cfgLocked = true ∧ s.operands.curve = ⟨17, 2, 2⟩ ∧ s.operands.point 0 = (5, 1) ∧
    s.operands.reg 9 = 2 ∧ Curve.Holds ⟨17, 2, 2⟩ 5 1 ∧ 2 % 17 ≠ 0 ∧
    DoubleAndAdd ⟨17, 2, 2⟩ (5, 1) 2 (6, 3) := by
  refine ⟨rfl, by decide +kernel, by decide +kernel, by decide +kernel, ?_, by decide, ?_⟩
  · unfold Curve.Holds; decide
  · have hsize : Nat.size 2 = 2 := by decide
    refine ⟨fun k => match k with | 0 => (5, 1) | 1 => (6, 3) | _ => (3, 1),
      fun k => match k with | 0 => none | 1 => none | _ => some (6, 3), rfl, rfl, by rw [hsize]; rfl, ?_⟩
    intro k hk
    rw [hsize] at hk
    unfold Round
    interval_cases k
    · exact ⟨by decide +kernel, fun _ => rfl, fun h => absurd h (by decide), fun h => absurd h (by decide)⟩
    · exact ⟨by decide +kernel, fun h => absurd h (by decide), fun _ _ => rfl, fun _ _ h => nomatch h⟩

/-- PMUL by 1 of a point of order 2: the doubling fails (42_scalar.md R201). -/
theorem test_witness_pmul_doubling_error :
    (t2 [(0, 22), (9, 1)]).operands.cfgLocked = true ∧ (t2 [(0, 22), (9, 1)]).operands.curve = ⟨23, 0, 1⟩ ∧
    (t2 [(0, 22), (9, 1)]).operands.point 0 = (22, 0) ∧ (t2 [(0, 22), (9, 1)]).operands.reg 9 = 1 ∧
    Curve.Holds ⟨23, 0, 1⟩ 22 0 ∧ 1 % 23 ≠ 0 ∧ DoubleAndAddFails ⟨23, 0, 1⟩ (22, 0) 1 .domain := by
  refine ⟨by decide +kernel, by decide +kernel, by decide +kernel, by decide +kernel, ?_, by decide, ?_⟩
  · unfold Curve.Holds; decide
  · exact ⟨0, fun _ => (22, 0), fun _ => none, by decide, rfl, rfl, fun j hj => absurd hj (by omega),
      .inr ⟨fun _ a h => (nomatch h), by decide +kernel⟩⟩

/-- PMUL by the order 19 of the toy curve's point: the last fold fails (95_test_vectors.md, N = 19). -/
theorem test_witness_pmul_fold_error :
    DoubleAndAddFails ⟨17, 2, 2⟩ (5, 1) 19 .undefinedResult := by
  refine ⟨4, fun k => match k with | 0 => (5, 1) | 1 => (6, 3) | 2 => (3, 1) | 3 => (13, 7) | _ => (10, 11),
    fun k => match k with | 0 => none | 1 => some (5, 1) | _ => some (10, 6), by decide, rfl, rfl, ?_,
    .inl ⟨by decide, (10, 6), rfl, by decide +kernel⟩⟩
  intro j hj
  unfold Round
  interval_cases j
  · exact ⟨by decide +kernel, fun h => absurd h (by decide), fun _ _ => rfl, fun _ _ h => (nomatch h)⟩
  · refine ⟨by decide +kernel, fun h => absurd h (by decide), fun _ h => (nomatch h), fun _ a h => ?_⟩
    obtain rfl := Option.some.inj h
    exact ⟨(10, 6), by decide +kernel, rfl⟩
  · exact ⟨by decide +kernel, fun _ => rfl, fun h => absurd h (by decide), fun h => absurd h (by decide)⟩
  · exact ⟨by decide +kernel, fun _ => rfl, fun h => absurd h (by decide), fun h => absurd h (by decide)⟩

theorem test_witness_pmul_preconditions :
    let s := toy [(0, 5), (1, 1), (9, 17)]
    s.operands.curve = ⟨17, 2, 2⟩ ∧ s.operands.point 0 = (5, 1) ∧ s.operands.reg 9 % 17 = 0 := by
  decide +kernel

theorem test_witness_pmul_by_one :
    (t2 [(0, 22), (9, 1)]).operands.point 0 = (22, 0) ∧ (t2 [(0, 22), (9, 1)]).operands.reg 9 = 1 ∧
    Curve.Holds ⟨23, 0, 1⟩ 22 0 ∧ 0 % 23 = 0 ∧
    (t2 [(0, 2), (1, 3), (9, 1)]).operands.point 0 = (2, 3) ∧ Curve.Holds ⟨23, 0, 1⟩ 2 3 ∧
    3 % 23 ≠ 0 ∧ Int.gcd (2 * (3 : Int)) 23 = 1 := by
  unfold Curve.Holds; decide +kernel

theorem test_witness_ppar_errors :
    let s := withBuf (0x03#8 :: (zeros31 ++ [6#8])) (writeCtrl 2#32 (toy []))
    s.operands.cfgLocked = true ∧ s.operands.data.bufLen.toNat = 33 ∧
    s.operands.data.buf[0] ≠ 0x04#8 ∧ s.operands.strictSqrt = true ∧ s.operands.curve.p % 4 ≠ 3 := by
  decide +kernel

theorem test_witness_ppar_uncompressed :
    let s := withBuf (0x04#8 :: (zeros31 ++ [2#8])) (t2 [])
    s.operands.cfgLocked = true ∧ s.operands.data.bufLen.toNat = 33 ∧
    s.operands.data.buf[0] = 0x04#8 := by decide +kernel

theorem test_witness_ppar_decompress :
    let s := withBuf (0x03#8 :: (zeros31 ++ [2#8])) (writeCtrl 2#32 (t2 []))
    s.operands.cfgLocked = true ∧ s.operands.data.bufLen.toNat = 33 ∧
    s.operands.data.buf[0] ≠ 0x04#8 ∧ s.operands.curve = ⟨23, 0, 1⟩ ∧
    (s.operands.strictSqrt = true → 23 % 4 = 3) := by decide +kernel

theorem test_witness_round_trips :
    (t2 [(0, 2), (1, 3)]).status.cfgLocked = true ∧
    (issue 0#32 (t2 [(0, 2), (1, 3)])).operands.curve = ⟨23, 0, 1⟩ ∧ Nat.Prime 23 ∧ 23 % 4 = 3 ∧
    (t2 [(0, 2), (1, 3)]).pair 0 = (2, 3) ∧ Curve.Holds ⟨23, 0, 1⟩ 2 3 := by
  refine ⟨rfl, by decide +kernel, by norm_num, by decide, by decide +kernel, ?_⟩
  unfold Curve.Holds; decide

theorem test_witness_cfg :
    (toy []).operands.cfgLocked = true ∧
    (State.reset.operands.cfgLocked = false ∧ State.reset.operands.curve.p = 0) ∧
    ((hostWrite 0x420#12 17#32 State.reset).operands.cfgLocked = false ∧
      (hostWrite 0x420#12 17#32 State.reset).operands.curve.p ≠ 0) := by decide +kernel

end Sys2Proof.Tests
end

/-! PROOFS. The state and its flags (10_state.md R30 to R50): the reset values, the curve commands of an
unlocked engine, who changes ONCURVE, WIGN and CMD_OVR, and the bits of STATUS and CTRL. -/

namespace Sys2Proof.Machine

/-! ### Reset (10_state.md R50) -/

/-- Settles O1: every value is a field of State.reset or computed from its fields. -/
theorem resetValues : Obligations.ResetValues := by
  have hw : ∀ r : RegNum, State.reset.data.w[r] = 0#256 := fun r =>
    Vector.getElem_replicate r.isLt
  have hbuf : ∀ (k : Nat) (h : k < 65), State.reset.data.buf[k] = 0x00#8 := fun _ h =>
    Vector.getElem_replicate h
  refine ⟨hw, rfl, rfl, rfl, rfl, hbuf, ?_⟩
  decide

/-- Settles O3: every clause of the invariant speaks of a flag or LATCH, and reset clears them all. -/
theorem resetMeetsInvariant : Obligations.ResetMeetsInvariant where
  latch _ h := nomatch h
  done _ := rfl
  locked h := nomatch h
  err := Nat.zero_le 10
  onCurve h := nomatch h

/-! ### The commands of an unlocked engine (10_state.md R42) -/

/-- A command whose outcome is guarded by CFG_LOCKED reports CONFIG while the latched lock is 0
(41_curve.md R174). -/
theorem exec_unlocked {i : Instr} {s : State} {r : Except Err Effect}
    (hi : commandOutcome i s.operands = requireLocked s.operands r)
    (hl : s.operands.cfgLocked = false) : exec i s = .next (completedWith 7#4 s) := by
  rw [exec_eq, hi, requireLocked_unlocked hl, complete_error]; rfl

/-- Settles O19: the six commands are the ones guarded by `requireLocked`. -/
theorem unlockedIsConfig : Obligations.UnlockedIsConfig := fun _ _ _ _ hl =>
  ⟨exec_unlocked rfl hl, exec_unlocked rfl hl, exec_unlocked rfl hl, exec_unlocked rfl hl,
    exec_unlocked rfl hl, exec_unlocked rfl hl⟩

/-! ### What a successful command asks for -/

/-- A mapped outcome succeeds only where the outcome does, with the mapped value. -/
theorem except_map_eq_ok {α β : Type} {f : α → β} {r : Except Err α} {b : β} (h : r.map f = .ok b) :
    ∃ a, r = .ok a ∧ f a = b := by
  cases r with
  | error e => cases h
  | ok a => exact ⟨a, rfl, Except.ok.inj h⟩

/-- A command guarded by CFG_LOCKED succeeds only while the latched lock is 1 (41_curve.md R174). -/
theorem requireLocked_eq_ok {o : Latch} {r : Except Err Effect} {e : Effect}
    (h : requireLocked o r = .ok e) : o.cfgLocked = true ∧ r = .ok e := by
  cases hl : o.cfgLocked with
  | false => rw [requireLocked_unlocked hl] at h; cases h
  | true => exact ⟨rfl, requireLocked_locked hl r ▸ h⟩

/-- A modular command that succeeds writes its destination register (40_modular.md R140). -/
theorem modularCommand_eq_ok {o : Latch} {ms : ModSel} {rd : RegNum} {f : Nat → Except Err Nat}
    {e : Effect} (h : modularCommand o ms rd f = .ok e) : ∃ v, e = .reg rd v := by
  by_cases h0 : o.selected ms = 0
  · rw [modularCommand_zero h0] at h; cases h
  · rw [modularCommand_pos h0] at h
    obtain ⟨v, -, rfl⟩ := except_map_eq_ok h
    exact ⟨v, rfl⟩

/-- A guarded command that answers a point writes its destination pair, the curve being locked. -/
theorem requireLocked_pair_eq_ok {o : Latch} {rd : RegNum} {r : Except Err Point} {e : Effect}
    (h : requireLocked o (r.map fun pt => .pair rd pt) = .ok e) :
    o.cfgLocked = true ∧ ∃ pt, e = .pair rd pt := by
  obtain ⟨hl, hr⟩ := requireLocked_eq_ok h
  obtain ⟨pt, -, rfl⟩ := except_map_eq_ok hr
  exact ⟨hl, pt, rfl⟩

/-- The effects a command may ask for when it succeeds on the operands `o`, with the tests it passed. -/
inductive SuccessCase (o : Latch) : Instr → Effect → Prop where
  | reg {i : Instr} {rd : RegNum} (v : Nat) (hd : destinations i = [rd]) :
      SuccessCase o i (.reg rd v)
  | pair {i : Instr} {rd : RegNum} (pt : Point) (hd : destinations i = pairRegs rd)
      (hl : o.cfgLocked = true) : SuccessCase o i (.pair rd pt)
  | onCurve (rs : RegNum) (b : Bool) (hl : o.cfgLocked = true) :
      SuccessCase o (.pchk rs) (.onCurve b)
  | buffer (c : Form) (rs : RegNum) (bytes : List Byte) : SuccessCase o (.pser c rs) (.buffer bytes)
  | lock (hl : o.cfgLocked = false) (hp : o.curve.p ≠ 0) : SuccessCase o .cfg .lock

/-- What a command that succeeds asks for: the one lemma that goes through the commands. -/
theorem commandOutcome_ok {i : Instr} {o : Latch} {e : Effect} (h : commandOutcome i o = .ok e) :
    SuccessCase o i e := by
  cases i with
  | mred | madd | msub | mmul | minv =>
    obtain ⟨v, rfl⟩ := modularCommand_eq_ok h
    exact .reg v rfl
  | pneg | padd | pdbl | pmul | ppar =>
    obtain ⟨hl, pt, rfl⟩ := requireLocked_pair_eq_ok h
    exact .pair pt rfl hl
  | pchk rs =>
    obtain ⟨hl, hr⟩ := requireLocked_eq_ok h
    cases hr
    exact .onCurve rs _ hl
  | pser c rs =>
    cases h
    exact .buffer c rs _
  | cfg =>
    simp only [commandOutcome, cmdCfg] at h
    split_ifs at h with hl hp
    cases h
    exact .lock (Bool.eq_false_iff.mpr hl) hp

/-! ### ONCURVE (10_state.md R41) -/

/-- A completion changes ONCURVE only by success with the write of ONCURVE. -/
theorem complete_onCurve_ne {r : Except Err Effect} {s : State}
    (h : (complete r s).status.onCurve ≠ s.status.onCurve) : ∃ b, r = .ok (.onCurve b) := by
  cases r with
  | error _ => exact absurd rfl h
  | ok e =>
    cases e with
    | onCurve b => exact ⟨b, rfl⟩
    | reg | pair | buffer | lock => exact absurd rfl h

/-- Only PCHK asks for the write of ONCURVE (41_curve.md R175). -/
theorem pchk_of_onCurve_effect {i : Instr} {o : Latch} {b : Bool}
    (h : commandOutcome i o = .ok (.onCurve b)) : ∃ rs, i = .pchk rs := by
  cases commandOutcome_ok h with
  | onCurve rs => exact ⟨rs, rfl⟩

/-- Settles O21, by the cases of a step: only a completion and a reset reach ONCURVE. -/
theorem onCurveChangedByPchkOnly : Obligations.OnCurveChangedByPchkOnly := by
  intro s t ht hne
  have hstep := step_case s
  rw [ht] at hstep
  cases hstep with
  | idle | read | illegal => exact absurd rfl hne
  | write =>
    obtain ⟨-, -, hkept, -⟩ := hostWrite_kept _ _ _
    exact absurd hkept hne
  | reset hs => exact .inl ⟨_, hs⟩
  | command _ hl hd =>
    obtain ⟨b, hok⟩ := complete_onCurve_ne hne
    obtain ⟨rs, rfl⟩ := pchk_of_onCurve_effect hok
    exact .inr ⟨_, rs, hl, hd, by rw [hok, complete_err], by rw [hok, complete_ok, busy_finish]⟩

/-! ### The words STATUS and CTRL of the window (20_memory.md R71, R72) -/

theorem windowTarget_ctrl : windowTarget 0x004#12 = .ctrl := rfl

theorem windowTarget_status : windowTarget 0x008#12 = .status := rfl

theorem hostRead_ctrl (s : State) : hostRead 0x004#12 s = s.ctrlWord := rfl

theorem hostRead_status (s : State) : hostRead 0x008#12 s = s.statusWord := rfl

theorem hostWrite_ctrl (v : Word32) (s : State) : hostWrite 0x004#12 v s = writeCtrl v s := rfl

theorem hostWrite_status (v : Word32) (s : State) : hostWrite 0x008#12 v s = writeStatus v s := rfl

/-- A write reaches the word it names, whatever its two low offset bits (20_memory.md R71). -/
theorem hostWrite_congr {off off' : Offset} (h : SameWord off off') (v : Word32) (s : State) :
    hostWrite off v s = hostWrite off' v s := by
  rw [hostWrite, hostWrite, windowTarget_congr h]

/-- An offset that does not name the word of `off'` addresses another target (20_memory.md R71, R72). -/
theorem windowTarget_ne_of_not_sameWord {off off' : Offset} {t : Target} (h : ¬SameWord off off')
    (ht : windowTarget off' = t) (hr : t ≠ .reserved) : windowTarget off ≠ t := by
  subst ht
  exact windowTarget_ne (fun hs => h hs.symm) hr

/-! ### WIGN and CMD_OVR (10_state.md R38, R43, R44) -/

/-- t has every sticky flag that s has. -/
structure KeepsSticky (s t : State) : Prop where
  wign : s.status.wign = true → t.status.wign = true
  cmdOvr : s.status.cmdOvr = true → t.status.cmdOvr = true

theorem KeepsSticky.of_eq {s t : State} (hwign : t.status.wign = s.status.wign)
    (hovr : t.status.cmdOvr = s.status.cmdOvr) : KeepsSticky s t :=
  ⟨hwign.trans, hovr.trans⟩

/-- A write to a data word keeps the sticky flags, dropped or not (20_memory.md R79). -/
theorem dataWrite_keepsSticky (blocked : Bool) (d : Data) (s : State) :
    KeepsSticky s (dataWrite blocked d s) := by
  cases blocked with
  | false => exact .of_eq rfl rfl
  | true => exact ⟨fun _ => rfl, id⟩

/-- A write to CMD keeps the sticky flags, dropped or not (20_memory.md R79). -/
theorem cmdWrite_keepsSticky (v : Word32) (s : State) : KeepsSticky s (cmdWrite v s) := by
  cases hb : s.busy with
  | false => rw [cmdWrite_idle s v hb]; exact .of_eq rfl rfl
  | true => rw [cmdWrite_busy s v hb]; exact ⟨id, fun _ => rfl⟩

/-- A host write to a word other than STATUS keeps the sticky flags. -/
theorem hostWrite_keepsSticky {off : Offset} (v : Word32) (s : State)
    (h : windowTarget off ≠ .status) : KeepsSticky s (hostWrite off v s) := by
  unfold hostWrite
  cases ht : windowTarget off with
  | status => exact absurd ht h
  | cmd => exact cmdWrite_keepsSticky v s
  | bufLen | buf | data => exact dataWrite_keepsSticky _ _ s
  | id | ctrl | reserved => exact .of_eq rfl rfl

/-- A host write either is the write of STATUS or keeps the sticky flags. -/
theorem hostWrite_sticky_cases (off : Offset) (v : Word32) (s : State) :
    (SameWord off 0x008#12 ∧ hostWrite off v s = writeStatus v s) ∨
    KeepsSticky s (hostWrite off v s) := by
  by_cases hword : SameWord off 0x008#12
  · exact .inl ⟨hword, by rw [hostWrite_congr hword, hostWrite_status]⟩
  · exact .inr (hostWrite_keepsSticky v s
      (windowTarget_ne_of_not_sameWord hword windowTarget_status (by decide)))

/-- The steps that can clear WIGN or CMD_OVR are resets and the host's writes of STATUS. -/
theorem step_sticky_cases {s t : State} (h : step s = .next t) :
    KeepsSticky s t ∨
    (∃ rest, s.script = .reset :: rest) ∨
    (∃ off v rest, s.script = .hostWrite off v :: rest ∧ SameWord off 0x008#12 ∧
      t = writeStatus v { s with script := rest }) := by
  have hstep := step_case s
  rw [h] at hstep
  cases hstep with
  | idle | read | illegal => exact .inl (.of_eq rfl rfl)
  | command =>
    obtain ⟨-, -, -, -, -, -, -, -, hwign, hovr⟩ := complete_kept _ _
    exact .inl (.of_eq hwign hovr)
  | reset hs => exact .inr (.inl ⟨_, hs⟩)
  | @write rest off v hs =>
    rcases hostWrite_sticky_cases off v { s with script := rest } with ⟨hword, heq⟩ | hkept
    · exact .inr (.inr ⟨off, v, rest, hs, hword, heq⟩)
    · exact .inl ⟨hkept.wign, hkept.cmdOvr⟩

/-- Settles O22: of the steps that can clear the two flags, a reset may clear both, and a write of STATUS
clears one only through its bit. -/
theorem stickyFlags : Obligations.StickyFlags := by
  intro s t h
  rcases step_sticky_cases h with hkept | hreset | ⟨off, v, rest, hs, hword, rfl⟩
  · exact ⟨fun h1 h0 => absurd (h0.symm.trans (hkept.wign h1)) Bool.false_ne_true,
      fun h1 h0 => absurd (h0.symm.trans (hkept.cmdOvr h1)) Bool.false_ne_true⟩
  · exact ⟨fun _ _ => .inl hreset, fun _ _ => .inl hreset⟩
  · refine ⟨fun h1 h0 => .inr ⟨off, v, rest, hs, hword, ?_⟩,
      fun h1 h0 => .inr ⟨off, v, rest, hs, hword, ?_⟩⟩
    · simpa [h1] using h0
    · simpa [h1] using h0

/-! ### The bits of STATUS and CTRL (10_state.md R37, R38) -/

/-- Bit i of STATUS, as the table of 10_state.md R38 lists it. -/
def State.statusBit (s : State) : Nat → Bool
  | 0 => s.busy
  | 1 => s.status.done
  | 2 => s.status.onCurve
  | 3 => s.status.cfgLocked
  | 4 => s.status.wign
  | 5 => s.status.cmdOvr
  | 6 => false
  | 7 => false
  | i + 8 => s.status.err.getLsbD i

/-- Bit i of CTRL, as 10_state.md R37 lists it. -/
def State.ctrlBit (s : State) : Nat → Bool
  | 0 => s.ctrl.doneIe
  | 1 => s.ctrl.strictSqrt
  | _ + 2 => false

theorem statusWord_getLsbD (s : State) (i : Nat) : s.statusWord.getLsbD i = s.statusBit i := by
  simp only [State.statusWord, BitVec.getLsbD_append]
  match i with
  | 0 | 1 | 2 | 3 | 4 | 5 | 6 | 7 => simp [State.statusBit]
  | i + 8 =>
    by_cases hi : i < 4
    · simp [State.statusBit, hi]
    · simp [State.statusBit, hi, BitVec.getLsbD_of_ge s.status.err i (by omega)]

theorem ctrlWord_getLsbD (s : State) (i : Nat) : s.ctrlWord.getLsbD i = s.ctrlBit i := by
  simp only [State.ctrlWord, BitVec.getLsbD_append]
  match i with
  | 0 | 1 | _ + 2 => simp [State.ctrlBit]

theorem statusWord_err (s : State) : s.statusWord.extractLsb' 8 4 = s.status.err := by
  apply BitVec.eq_of_getLsbD_eq
  intro i hi
  rw [BitVec.getLsbD_extractLsb', Nat.add_comm, statusWord_getLsbD]
  simp [State.statusBit, hi]

/-- A mask of w bits has no bit from w on. -/
theorem getLsbD_mask_of_le {w i : Nat} (m : BitVec w) (h : w ≤ i) :
    (m.setWidth 32).getLsbD i = false := by
  rw [BitVec.getLsbD_setWidth, BitVec.getLsbD_of_ge m i h, Bool.and_false]

/-- A write to STATUS clears the bits of the mask 0x32 written as 1 (10_state.md R38). -/
theorem statusWord_writeStatus (v : Word32) (s : State) :
    (writeStatus v s).statusWord = s.statusWord &&& ~~~(v &&& 0x32#32) := by
  apply BitVec.eq_of_getLsbD_eq
  intro i hi
  simp only [BitVec.getLsbD_and, BitVec.getLsbD_not, hi, decide_true, Bool.true_and,
    statusWord_getLsbD]
  match i with
  | 0 | 1 | 2 | 3 | 4 | 5 | 6 | 7 => simp [State.statusBit, State.busy]
  | i + 8 =>
    have hmask : (0x32#32).getLsbD (i + 8) = false := getLsbD_mask_of_le 0x32#8 (by omega)
    simp [State.statusBit, hmask]

/-- A write to CTRL stores bits 1:0 (10_state.md R37). -/
theorem ctrlWord_writeCtrl (v : Word32) (s : State) :
    (writeCtrl v s).ctrlWord = v &&& 0x3#32 := by
  apply BitVec.eq_of_getLsbD_eq
  intro i hi
  rw [ctrlWord_getLsbD, BitVec.getLsbD_and]
  match i with
  | 0 | 1 => simp [State.ctrlBit]
  | i + 2 =>
    have hmask : (0x3#32).getLsbD (i + 2) = false := getLsbD_mask_of_le 0x3#2 (by omega)
    rw [hmask, Bool.and_false, State.ctrlBit]

/-- Another word than STATUS reads the same after a write to STATUS (20_memory.md R72). -/
theorem hostRead_writeStatus_of_ne {off : Offset} (v : Word32) (s : State)
    (h : windowTarget off ≠ .status) : hostRead off (writeStatus v s) = hostRead off s := by
  unfold hostRead
  cases ht : windowTarget off with
  | status => exact absurd ht h
  | id | ctrl | cmd | bufLen | buf | data | reserved => rfl

/-- Another word than CTRL reads the same after a write to CTRL (20_memory.md R72). -/
theorem hostRead_writeCtrl_of_ne {off : Offset} (v : Word32) (s : State)
    (h : windowTarget off ≠ .ctrl) : hostRead off (writeCtrl v s) = hostRead off s := by
  unfold hostRead
  cases ht : windowTarget off with
  | ctrl => exact absurd ht h
  | id | status | cmd | bufLen | buf | data | reserved => rfl

/-- Settles O32: STATUS and CTRL bit by bit, and the words beside them untouched. -/
theorem statusAndCtrlBits : Obligations.StatusAndCtrlBits := by
  intro s v
  simp only [hostRead_status, hostRead_ctrl, hostWrite_status, hostWrite_ctrl]
  refine ⟨statusWord_getLsbD s 0, statusWord_getLsbD s 1, statusWord_getLsbD s 2,
    statusWord_getLsbD s 3, statusWord_getLsbD s 4, statusWord_getLsbD s 5, statusWord_err s,
    statusWord_writeStatus v s, fun off hne => ?_, ctrlWord_writeCtrl v s, fun off hne => ?_⟩
  · exact hostRead_writeStatus_of_ne v s
      (windowTarget_ne_of_not_sameWord hne windowTarget_status (by decide))
  · exact hostRead_writeCtrl_of_ne v s
      (windowTarget_ne_of_not_sameWord hne windowTarget_ctrl (by decide))

end Sys2Proof.Machine

/-! PROOFS. The host's window (20_memory.md R71 to R80): what a read returns and a write does at each word of
the map, the reserved words, and which words a write or a command leaves as they were. -/

namespace Sys2Proof.Machine

/-! ### The address map (20_memory.md R71, R72) -/

/-- Offsets that agree from bit 2 on name the same word. -/
theorem sameWord_of_getLsbD {off off' : Offset}
    (h : ∀ b, 2 ≤ b → off.getLsbD b = off'.getLsbD b) : SameWord off off' := by
  apply BitVec.eq_of_getLsbD_eq
  intro i _
  rw [BitVec.getLsbD_extractLsb', BitVec.getLsbD_extractLsb', h (2 + i) (by omega)]

theorem hostRead_congr {off off' : Offset} (h : SameWord off off') (s : State) :
    hostRead off s = hostRead off' s := by
  rw [hostRead, hostRead, windowTarget_congr h]

/-- An offset that addresses the target of `off'`, not reserved, names the word of `off'`. -/
theorem sameWord_of_windowTarget {off off' : Offset} {t : Target} (ht : windowTarget off = t)
    (ht' : windowTarget off' = t) (hr : t ≠ .reserved) : SameWord off off' :=
  by_contra fun hne => windowTarget_ne_of_not_sameWord hne ht' hr ht

theorem windowTarget_cmd : windowTarget 0x00C#12 = .cmd := rfl

theorem windowTarget_bufLen : windowTarget 0x010#12 = .bufLen := rfl

/-- The three reserved ranges of the map address nothing. -/
theorem windowTarget_reserved {off : Offset}
    (h : (0x014 ≤ off.toNat ∧ off.toNat < 0x100) ∨ (0x144 ≤ off.toNat ∧ off.toNat < 0x200) ∨
      0x480 ≤ off.toNat) : windowTarget off = .reserved := by
  have hindex : (5 ≤ wordIndex off ∧ wordIndex off < 64) ∨
      (81 ≤ wordIndex off ∧ wordIndex off < 128) ∨ 288 ≤ wordIndex off := by
    simp only [wordIndex]; omega
  generalize hn : wordIndex off = n at hindex
  rw [windowTarget, hn, targetOf]
  rcases hindex with h | h | h <;> simp (disch := omega) only [if_pos, if_neg]

/-! ### What a read returns and a write does at each word -/

section
variable (s : State) (v : Word32)

theorem hostRead_data (r : DataReg) (k : Fin 8) :
    hostRead (r.offset k) s = getWord (s.data.get r) k := by
  rw [hostRead, windowTarget_offset]

theorem hostRead_buf (w : Fin 17) : hostRead (bufOffset w) s = getBufWord s.data.buf w := by
  rw [hostRead, windowTarget_bufOffset]

theorem hostRead_bufLen : hostRead 0x010#12 s = s.data.bufLen.setWidth 32 := rfl

theorem hostRead_reserved {off : Offset} (h : windowTarget off = .reserved) :
    hostRead off s = 0#32 := by
  rw [hostRead, h]

theorem hostWrite_data (r : DataReg) (k : Fin 8) :
    hostWrite (r.offset k) v s =
      dataWrite (s.busy || (r.isCurve && s.status.cfgLocked))
        (s.data.put (putWord (s.data.get r) k v) r) s := by
  rw [hostWrite, windowTarget_offset]

theorem hostWrite_buf (w : Fin 17) :
    hostWrite (bufOffset w) v s =
      dataWrite s.busy { s.data with buf := putBufWord s.data.buf w v } s := by
  rw [hostWrite, windowTarget_bufOffset]

theorem hostWrite_bufLen :
    hostWrite 0x010#12 v s = dataWrite s.busy { s.data with bufLen := v.setWidth 7 } s := rfl

theorem hostWrite_cmd : hostWrite 0x00C#12 v s = cmdWrite v s := rfl

theorem hostWrite_id : hostWrite 0x000#12 v s = s := rfl

theorem hostWrite_reserved {off : Offset} (h : windowTarget off = .reserved) :
    hostWrite off v s = s := by
  rw [hostWrite, h]

/-- A register write is accepted while no command is in flight and CFG has not locked the register. -/
theorem hostWrite_data_accepted {r : DataReg} (k : Fin 8) (hb : s.busy = false)
    (hl : r.isCurve = true → s.status.cfgLocked = false) :
    hostWrite (r.offset k) v s =
      { s with data := s.data.put (putWord (s.data.get r) k v) r } := by
  have hfree : (r.isCurve && s.status.cfgLocked) = false := by
    cases hc : r.isCurve with
    | false => rfl
    | true => exact hl hc
  rw [hostWrite_data, hb, hfree, Bool.or_false, dataWrite_accepted]

/-- A write to a curve parameter that CFG has locked is dropped (20_memory.md R80). -/
theorem hostWrite_data_locked {r : DataReg} (k : Fin 8) (hr : r.isCurve = true)
    (hl : s.status.cfgLocked = true) : hostWrite (r.offset k) v s = setWign s := by
  rw [hostWrite_data, hr, hl, Bool.and_self, Bool.or_true, dataWrite_blocked]

theorem hostWrite_buf_accepted (w : Fin 17) (hb : s.busy = false) :
    hostWrite (bufOffset w) v s =
      { s with data := { s.data with buf := putBufWord s.data.buf w v } } := by
  rw [hostWrite_buf, hb, dataWrite_accepted]

theorem hostWrite_bufLen_accepted (hb : s.busy = false) :
    hostWrite 0x010#12 v s = { s with data := { s.data with bufLen := v.setWidth 7 } } := by
  rw [hostWrite_bufLen, hb, dataWrite_accepted]

end

/-! ### Which words read as before -/

/-- A word reads the same in two states that agree on the field it shows; CTRL and CMD are to agree outright. -/
theorem hostRead_eq_of_target {off : Offset} {s t : State} (hctrl : t.ctrl = s.ctrl)
    (hcmd : t.cmd = s.cmd)
    (hstatus : windowTarget off = .status → t.statusWord = s.statusWord)
    (hlen : windowTarget off = .bufLen → t.data.bufLen = s.data.bufLen)
    (hbuf : ∀ w, windowTarget off = .buf w → getBufWord t.data.buf w = getBufWord s.data.buf w)
    (hdata : ∀ r k, windowTarget off = .data r k →
      getWord (t.data.get r) k = getWord (s.data.get r) k) :
    hostRead off t = hostRead off s := by
  unfold hostRead
  cases ht : windowTarget off with
  | id | reserved => rfl
  | ctrl => simp only [State.ctrlWord, hctrl]
  | status => exact hstatus ht
  | cmd => exact hcmd
  | bufLen => exact congrArg (BitVec.setWidth 32) (hlen ht)
  | buf w => exact hbuf w ht
  | data r k => exact hdata r k ht

/-- The words of another register, and the other words of the same one, are as before a word is written
(20_memory.md R73). -/
theorem getWord_put_putWord_ne (d : Data) (v : Word32) {r q : DataReg} {k j : Fin 8}
    (h : Target.data q j ≠ .data r k) :
    getWord ((d.put (putWord (d.get r) k v) r).get q) j = getWord (d.get q) j := by
  by_cases hq : q = r
  · subst hq
    have hj : j ≠ k := fun hj => h (hj ▸ rfl)
    rw [Data.get_put_same, getWord_putWord_ne _ _ hj]
  · rw [Data.get_put_ne _ _ hq]

theorem Data.put_buf (d : Data) (v : Word) (r : DataReg) : (d.put v r).buf = d.buf := by
  cases r <;> rfl

theorem Data.put_bufLen (d : Data) (v : Word) (r : DataReg) : (d.put v r).bufLen = d.bufLen := by
  cases r <;> rfl

/-- BUF and BUF_LEN are in no 256-bit register. -/
theorem Data.get_of_buffer (d : Data) (buf : Vector Byte 65) (len : BitVec 7) (r : DataReg) :
    ({ d with buf := buf, bufLen := len } : Data).get r = d.get r := by
  cases r <;> rfl

/-- A byte of another word of BUF is as before a word is written (20_memory.md R74). -/
theorem putBufWord_getElem?_of_ne (buf : Vector Byte 65) {w : Fin 17} (v : Word32) {n : Nat}
    (h : n / 4 ≠ w.val) : (putBufWord buf w v)[n]? = buf[n]? := by
  by_cases hn : n < 65
  · rw [Vector.getElem?_eq_getElem hn, Vector.getElem?_eq_getElem hn, putBufWord_get _ _ _ _ hn,
      if_neg h]
  · rw [Vector.getElem?_eq_none (by omega), Vector.getElem?_eq_none (by omega)]

theorem getBufWord_putBufWord_ne (buf : Vector Byte 65) {w w' : Fin 17} (v : Word32)
    (h : w' ≠ w) : getBufWord (putBufWord buf w v) w' = getBufWord buf w' := by
  have hbyte : ∀ i < 4, (putBufWord buf w v)[4 * w'.val + i]? = buf[4 * w'.val + i]? :=
    fun i hi => putBufWord_getElem?_of_ne _ _ (by omega)
  simp only [getBufWord, hbyte 1 (by omega), hbyte 2 (by omega), hbyte 3 (by omega),
    show (putBufWord buf w v)[4 * w'.val]? = buf[4 * w'.val]? from hbyte 0 (by omega)]

/-! ### Reads (20_memory.md R71, R77) -/

theorem step_hostRead {s : State} {off : Offset} {rest : List Event}
    (hs : s.script = .hostRead off :: rest) :
    step s = .next { s with script := rest, replies := hostRead off s :: s.replies } :=
  step_cons hs

/-- Settles O24: each of the two steps hands over the word and touches nothing but the model's lists. -/
theorem readsHaveNoSideEffect : Obligations.ReadsHaveNoSideEffect := fun s off _ hs =>
  ⟨_, _, hostRead off s, step_hostRead hs, step_hostRead rfl, ⟨rfl, rfl, rfl, rfl, rfl⟩,
    ⟨rfl, rfl, rfl, rfl, rfl⟩, rfl, rfl⟩

/-- Settles O25: both accesses go through the word the offset names. -/
theorem offsetLowBitsIgnored : Obligations.OffsetLowBitsIgnored := fun s _ _ v h =>
  ⟨hostRead_congr (sameWord_of_getLsbD h) s, hostWrite_congr (sameWord_of_getLsbD h) v s⟩

/-! ### Accepted writes of the data words (20_memory.md R73 to R75) -/

/-- Settles O26: a word of a register is the word `getWord` takes, and `putWord` replaces that word only. -/
theorem registerWords : Obligations.RegisterWords := by
  refine ⟨fun s r k => ?_, fun s r k v hb hl => ?_⟩
  · rw [hostRead_data, getWord_toNat]
  · rw [hostWrite_data_accepted s v k hb hl]
    refine ⟨?_, rfl, fun off hoff => ?_⟩
    · rw [hostRead_data, Data.get_put_same, getWord_putWord_same]
    · have hne : windowTarget off ≠ .data r k :=
        windowTarget_ne_of_not_sameWord hoff (windowTarget_offset r k) (by simp)
      refine hostRead_eq_of_target rfl rfl (fun _ => rfl) (fun _ => Data.put_bufLen _ _ _)
        (fun w _ => ?_) (fun q j ht => getWord_put_putWord_ne _ _ (ht ▸ hne))
      rw [Data.put_buf]

/-- The three bytes past BUF[64] in word 16 read 0 (20_memory.md R74). -/
theorem getBufWord_last (buf : Vector Byte 65) : (getBufWord buf 16).extractLsb' 8 24 = 0#24 := by
  have hpast : ∀ n ≥ 65, buf[n]?.getD 0#8 = 0#8 := fun n hn => by
    rw [Vector.getElem?_eq_none hn, Option.getD_none]
  calc (getBufWord buf 16).extractLsb' 8 24
      = buf[67]?.getD 0#8 ++ buf[66]?.getD 0#8 ++ buf[65]?.getD 0#8 :=
        BitVec.extractLsb'_append_eq_left
    _ = 0#24 := by rw [hpast 67 (by decide), hpast 66 (by decide), hpast 65 (by decide)]; rfl

/-- Settles O27: byte i of a word is the byte `getBufWord` places there, and `putBufWord` replaces the bytes of
its word only. -/
theorem bufferWords : Obligations.BufferWords := by
  refine ⟨fun s w i h => ?_, fun s => ?_, fun s w v hb => ?_⟩
  · rw [hostRead_buf, getBufWord_byte, Vector.getElem?_eq_getElem h, Option.getD_some]
  · rw [hostRead_buf, getBufWord_last]
  · rw [hostWrite_buf_accepted s v w hb]
    refine ⟨fun i h => ?_, fun k h hk => ?_, fun off hoff => ?_⟩
    · have hdiv : (4 * w.val + i.val) / 4 = w.val := by omega
      have hmod : (4 * w.val + i.val) % 4 = i.val := by omega
      rw [putBufWord_get _ _ _ _ h, if_pos hdiv, hmod]
    · rw [putBufWord_get _ _ _ _ h, if_neg hk]
    · have hne : windowTarget off ≠ .buf w :=
        windowTarget_ne_of_not_sameWord hoff (windowTarget_bufOffset w) (by simp)
      exact hostRead_eq_of_target rfl rfl (fun _ => rfl) (fun _ => rfl)
        (fun w' ht => getBufWord_putBufWord_ne _ _ fun hw => hne (hw ▸ ht))
        (fun r k _ => congrArg (getWord · k) (Data.get_of_buffer s.data _ _ r))

/-- Settles O28: BUF_LEN is the word's low 7 bits, and no other word shows it. -/
theorem bufLenWord : Obligations.BufLenWord := by
  refine ⟨fun s => ?_, fun s v hb => ?_⟩
  · rw [hostRead_bufLen, BitVec.toNat_setWidth_of_le (by omega)]
  · rw [hostWrite_bufLen_accepted s v hb]
    refine ⟨BitVec.setWidth_eq_extractLsb' (x := v) (by decide : 7 ≤ 32), fun off hoff => ?_⟩
    have hne : windowTarget off ≠ .bufLen :=
      windowTarget_ne_of_not_sameWord hoff windowTarget_bufLen (by decide)
    exact hostRead_eq_of_target rfl rfl (fun _ => rfl) (fun ht => absurd ht hne) (fun _ _ => rfl)
      (fun r k _ => congrArg (getWord · k) (Data.get_of_buffer s.data _ _ r))

/-! ### Reserved words and bits (20_memory.md R76) -/

/-- Bits 31:2 of CTRL read 0 (10_state.md R37). -/
theorem ctrlWord_reserved (s : State) : s.ctrlWord.extractLsb' 2 30 = 0#30 := by
  apply BitVec.eq_of_getLsbD_eq
  intro i _
  rw [BitVec.getLsbD_extractLsb', ctrlWord_getLsbD, Nat.add_comm]
  simp [State.ctrlBit]

/-- Bits 7:6 of STATUS read 0 (10_state.md R38). -/
theorem statusWord_reserved_mid (s : State) : s.statusWord.extractLsb' 6 2 = 0#2 := by
  apply BitVec.eq_of_getLsbD_eq
  intro i hi
  rw [BitVec.getLsbD_extractLsb', statusWord_getLsbD]
  interval_cases i <;> simp [State.statusBit]

/-- Bits 31:12 of STATUS read 0 (10_state.md R38). -/
theorem statusWord_reserved_high (s : State) : s.statusWord.extractLsb' 12 20 = 0#20 := by
  apply BitVec.eq_of_getLsbD_eq
  intro i _
  have herr : s.status.err.getLsbD (i + 4) = false := BitVec.getLsbD_of_ge _ _ (by omega)
  rw [BitVec.getLsbD_extractLsb', statusWord_getLsbD, Nat.add_comm, State.statusBit, herr]
  simp

/-- A value of w bits has no bit from w on. -/
theorem extractLsb'_setWidth_high {w n : Nat} (x : BitVec w) (len : Nat) :
    (x.setWidth n).extractLsb' w len = 0#len := by
  apply BitVec.eq_of_getLsbD_eq
  intro i _
  rw [BitVec.getLsbD_extractLsb', BitVec.getLsbD_setWidth, BitVec.getLsbD_of_ge x _ (by omega)]
  simp

/-- Words that agree in their low bits agree in each of them. -/
theorem getLsbD_eq_of_extractLsb' {v v' : Word32} {len i : Nat}
    (h : v.extractLsb' 0 len = v'.extractLsb' 0 len) (hi : i < len) :
    v.getLsbD i = v'.getLsbD i := by
  have := congrArg (BitVec.getLsbD · i) h
  simpa [hi] using this

/-- CTRL stores bits 1:0 of the word written (10_state.md R37). -/
theorem writeCtrl_congr {v v' : Word32} (h : v.extractLsb' 0 2 = v'.extractLsb' 0 2) (s : State) :
    writeCtrl v s = writeCtrl v' s := by
  rw [writeCtrl, writeCtrl, getLsbD_eq_of_extractLsb' h (by decide : 0 < 2),
    getLsbD_eq_of_extractLsb' h (by decide : 1 < 2)]

/-- A write to STATUS uses bits 1, 4 and 5 of the word written (10_state.md R38). -/
theorem writeStatus_congr {v v' : Word32} (h1 : v.getLsbD 1 = v'.getLsbD 1)
    (h4 : v.getLsbD 4 = v'.getLsbD 4) (h5 : v.getLsbD 5 = v'.getLsbD 5) (s : State) :
    writeStatus v s = writeStatus v' s := by
  rw [writeStatus, writeStatus, h1, h4, h5]

/-- Settles O29: the reserved ranges address nothing, and the reserved bits are neither shown nor used. -/
theorem reservedReadsZero : Obligations.ReservedReadsZero := by
  refine ⟨fun s off v h => ?_, fun s => ?_, fun s v v' => ?_⟩
  · have ht := windowTarget_reserved h
    exact ⟨hostRead_reserved s ht, hostWrite_reserved s v ht⟩
  · exact ⟨ctrlWord_reserved s, statusWord_reserved_mid s, statusWord_reserved_high s,
      extractLsb'_setWidth_high s.data.bufLen 25⟩
  · refine ⟨fun h => writeCtrl_congr h s, fun h1 h4 h5 => writeStatus_congr h1 h4 h5 s, fun h => ?_⟩
    have hlen : v.setWidth 7 = v'.setWidth 7 := by
      rw [BitVec.setWidth_eq_extractLsb' (by decide), h, BitVec.setWidth_eq_extractLsb' (by decide)]
    rw [hostWrite_bufLen, hostWrite_bufLen, hlen]

/-! ### Dropped writes (20_memory.md R79, R80) -/

/-- Settles O30: BUSY blocks the data words and CMD, and no other word asks for it. -/
theorem busyWrites : Obligations.BusyWrites := by
  intro s v hb
  refine ⟨fun r k => ?_, fun w => ?_, ?_, ?_, hostWrite_ctrl v s, hostWrite_status v s,
    hostWrite_id s v, fun off h => hostWrite_reserved s v (windowTarget_reserved h)⟩
  · rw [hostWrite_data, hb, Bool.true_or, dataWrite_blocked, setWign]
  · rw [hostWrite_buf, hb, dataWrite_blocked, setWign]
  · rw [hostWrite_bufLen, hb, dataWrite_blocked, setWign]
  · rw [hostWrite_cmd, cmdWrite_busy s v hb, setCmdOvr]

/-- Settles O31: the three registers are those CFG locks. -/
theorem lockedWritesIgnored : Obligations.LockedWritesIgnored := fun s v k hl =>
  ⟨hostWrite_data_locked s v k rfl hl, hostWrite_data_locked s v k rfl hl,
    hostWrite_data_locked s v k rfl hl⟩

/-! ### The frame of a command, through the window (20_memory.md R72, 60_exceptions.md R263) -/

theorem DataKeptBut.of_eq {written : List RegNum} {s t : State} (h : t.data = s.data) :
    DataKeptBut written s t := by
  constructor <;> simp [h]

/-- A register outside the list holds what it held. -/
theorem DataKeptBut.get_eq {written : List RegNum} {s t : State} (h : DataKeptBut written s t)
    {r : DataReg} (hr : ∀ i ∈ written, r ≠ .w i) : t.data.get r = s.data.get r := by
  cases r with
  | w i => exact h.w i fun hi => hr i hi rfl
  | modulus => exact h.modulus
  | curveP => exact h.curveP
  | curveA => exact h.curveA
  | curveB => exact h.curveB

/-- A word that is not STATUS and not of a written register reads as before. -/
theorem hostRead_of_dataKeptBut {written : List RegNum} {off : Offset} {s t : State}
    (h : DataKeptBut written s t) (hctrl : t.ctrl = s.ctrl) (hcmd : t.cmd = s.cmd)
    (hstatus : ¬SameWord off 0x008#12)
    (hoff : ∀ r ∈ written, ∀ k, ¬SameWord off ((DataReg.w r).offset k)) :
    hostRead off t = hostRead off s := by
  refine hostRead_eq_of_target hctrl hcmd
    (fun ht => absurd (sameWord_of_windowTarget ht windowTarget_status (by decide)) hstatus)
    (fun _ => h.bufLen) (fun _ _ => by rw [h.buf]) (fun r k ht => ?_)
  have hr : ∀ i ∈ written, r ≠ .w i := by
    rintro i hi rfl
    exact hoff i hi k (sameWord_of_windowTarget ht (windowTarget_offset (.w i) k) (by simp))
  rw [h.get_eq hr]

/-- A command other than PSER changes no data but its destination registers, whatever its outcome. -/
theorem complete_dataKeptBut {i : Instr} {o : Latch} (s : State) (h : ∀ c rs, i ≠ .pser c rs) :
    DataKeptBut (destinations i) s (complete (commandOutcome i o) s) := by
  cases hr : commandOutcome i o with
  | error e => exact .of_eq rfl
  | ok e =>
    cases commandOutcome_ok hr with
    | @reg _ rd v hd => exact hd ▸ (writesOnly_reg rd v s).data
    | @pair _ rd pt hd => exact hd ▸ (writesOnly_pair rd pt s).data
    | onCurve | lock => exact .of_eq rfl
    | buffer c rs => exact absurd rfl (h c rs)

/-- PSER leaves every word that is not STATUS, BUF_LEN or of BUF as it was (43_codec.md R222). -/
theorem hostRead_complete_buffer {off : Offset} (bytes : List Byte) (s : State)
    (hstatus : ¬SameWord off 0x008#12) (hlen : ¬SameWord off 0x010#12)
    (hbuf : ∀ w, ¬SameWord off (bufOffset w)) :
    hostRead off (complete (.ok (.buffer bytes)) s) = hostRead off s :=
  hostRead_eq_of_target rfl rfl
    (fun ht => absurd (sameWord_of_windowTarget ht windowTarget_status (by decide)) hstatus)
    (fun ht => absurd (sameWord_of_windowTarget ht windowTarget_bufLen (by decide)) hlen)
    (fun w ht => absurd (sameWord_of_windowTarget ht (windowTarget_bufOffset w) (by simp)) (hbuf w))
    (fun r k _ => congrArg (getWord · k) (Data.get_of_buffer s.data _ _ r))

/-- Settles O20: PSER writes BUF and BUF_LEN, every other command its destination registers at most. -/
theorem windowFrame : Obligations.WindowFrame := by
  intro i s t off ht hoff
  rw [exec_eq] at ht
  cases ht
  simp only [MayChange, not_or] at hoff
  obtain ⟨hstatus, hdest, hpser⟩ := hoff
  by_cases hi : ∃ c rs, i = .pser c rs
  · obtain ⟨c, rs, rfl⟩ := hi
    have hwords := fun h => hpser ⟨c, rs, rfl, h⟩
    exact hostRead_complete_buffer _ s hstatus (fun h => hwords (.inl h))
      (fun w h => hwords (.inr ⟨w, h⟩))
  · have hkept := complete_dataKeptBut (o := s.operands) s fun c rs h => hi ⟨c, rs, h⟩
    obtain ⟨hctrl, hcmd, -⟩ := complete_kept (commandOutcome i s.operands) s
    exact hostRead_of_dataKeptBut hkept hctrl hcmd hstatus fun r hr k h => hdest ⟨r, hr, k, h⟩

end Sys2Proof.Machine

/-! PROOFS. The encoding of command words (30_encoding.md R110 to R120): decoding and encoding are inverse
to each other, the opcode map, the illegal words and the encoding examples. -/

namespace Sys2Proof.Machine

/-- The word of a well-formed command matches the row of its mnemonic. -/
theorem encode_holds (i : Instr) : Laws.RowMatches.Statement i :=
  match i with
  | .mred ms rd rs => Laws.RowMatches.mred ms rd rs
  | .madd ms rd rs rt => Laws.RowMatches.madd ms rd rs rt
  | .msub ms rd rs rt => Laws.RowMatches.msub ms rd rs rt
  | .mmul ms rd rs rt => Laws.RowMatches.mmul ms rd rs rt
  | .minv ms rd rs => Laws.RowMatches.minv ms rd rs
  | .pchk rs => Laws.RowMatches.pchk rs
  | .pneg rd rs => Laws.RowMatches.pneg rd rs
  | .padd rd rs rt => Laws.RowMatches.padd rd rs rt
  | .pdbl rd rs => Laws.RowMatches.pdbl rd rs
  | .pmul rd rs rt => Laws.RowMatches.pmul rd rs rt
  | .pser c rs => Laws.RowMatches.pser c rs
  | .ppar rd => Laws.RowMatches.ppar rd
  | .cfg => Laws.RowMatches.cfg

/-! ### The selector bit (30_encoding.md R113) -/

@[simp] theorem modSelOf_bit (ms : ModSel) : modSelOf ms.bit = ms := by cases ms <;> rfl

@[simp] theorem bit_modSelOf (f : Bool) : (modSelOf f).bit = f := by cases f <;> rfl

@[simp] theorem formOf_bit (c : Form) : formOf c.bit = c := by cases c <;> rfl

@[simp] theorem bit_formOf (f : Bool) : (formOf f).bit = f := by cases f <;> rfl

/-! ### Decode after encode (30_encoding.md R111 to R115) -/

/-- The operands of a command stand in the fields of its word, well formed or not. -/
theorem instrOf_encode (i : Instr) : instrOf i.mnemonic (encode i) = i := by
  cases i <;> simp [Instr.mnemonic, instrOf, encode, fieldF_pack, fieldRd_pack, fieldRs_pack, fieldRt_pack]

/-- Settles O5: the word matches the row of its command, and its fields give back the operands. -/
theorem decodeEncode : Obligations.DecodeEncode := by
  intro i hwf
  obtain ⟨r, hr, hname, hholds⟩ := encode_holds i hwf
  rw [decode_of_row hr hholds, hname, instrOf_encode]

/-! ### Encode after decode (30_encoding.md R112, R115, R116) -/

/-- Only a matching row gives a command. -/
theorem row_of_decode {w : Word32} {i : Instr} (h : decode w = some i) :
    ∃ r ∈ opcodeTable, r.holds w = true ∧ instrOf r.name w = i := by
  obtain ⟨r, hfind, hi⟩ := Option.map_eq_some_iff.mp h
  exact ⟨r, List.mem_of_find?_eq_some hfind, List.find?_some (p := fun r : OpcodeRow => r.holds w) hfind, hi⟩

/-- A row admits only even point fields, and fixes the opcode and each field its command does not use, so
that the encoder places the same fields again. -/
theorem encode_instrOf {r : OpcodeRow} {w : Word32} (hr : r ∈ opcodeTable) (h : r.holds w = true) :
    (instrOf r.name w).wf = true ∧ encode (instrOf r.name w) = w := by
  have hpack := pack_fields (w := w)
  simp only [opcodeTable, List.mem_cons, List.not_mem_nil, or_false] at hr
  rcases hr with rfl | rfl | rfl | rfl | rfl | rfl | rfl | rfl | rfl | rfl | rfl | rfl | rfl
  all_goals
    simp only [holds_MRED, holds_MADD, holds_MSUB, holds_MMUL, holds_MINV, holds_PCHK, holds_PNEG,
      holds_PADD, holds_PDBL, holds_PMUL, holds_PSER, holds_PPAR, holds_CFG] at h
    simp only [h, true_implies] at hpack
    simp [instrOf, Instr.wf, encode, h, hpack]

/-- Settles O6: the word is the one the matching row's command encodes to. -/
theorem encodeDecode : Obligations.EncodeDecode := by
  intro w i h
  obtain ⟨r, hr, hholds, rfl⟩ := row_of_decode h
  exact encode_instrOf hr hholds

/-! ### The opcode map (30_encoding.md R115, R116) -/

theorem holds_iff_mask (r : OpcodeRow) (w : Word32) : r.holds w = true ↔ w &&& r.mask = r.value :=
  beq_iff_eq

/-- A word is illegal when no row matches it. -/
theorem decode_eq_none_iff (w : Word32) :
    decode w = none ↔ ∀ r ∈ opcodeTable, w &&& r.mask ≠ r.value := by
  simp only [decode, Option.map_eq_none_iff, List.find?_eq_none, holds_iff_mask, ne_eq]

@[simp] theorem mnemonic_instrOf (m : Mnemonic) (w : Word32) : (instrOf m w).mnemonic = m := by
  cases m <;> rfl

/-- A mnemonic has one row. -/
theorem row_eq_of_name_eq : ∀ r ∈ opcodeTable, ∀ r' ∈ opcodeTable, r.name = r'.name → r = r' := by decide

/-- A word that matches a row names its mnemonic, so the rows of a word share theirs. -/
theorem row_unique {w : Word32} {r r' : OpcodeRow} (hr : r ∈ opcodeTable) (hr' : r' ∈ opcodeTable)
    (h : r.holds w = true) (h' : r'.holds w = true) : r = r' := by
  have hinstr : instrOf r.name w = instrOf r'.name w :=
    Option.some.inj ((decode_of_row hr h).symm.trans (decode_of_row hr' h'))
  exact row_eq_of_name_eq r hr r' hr' (by simpa using congrArg Instr.mnemonic hinstr)

/-- Settles O8: the decoder takes a matching row of the table, and a word matches one row at most. -/
theorem opcodeMap : Obligations.OpcodeMap :=
  ⟨rfl, fun r hr w h => decode_of_row hr ((holds_iff_mask r w).mpr h), decode_eq_none_iff,
    fun w r r' hr hr' h h' => row_unique hr hr' ((holds_iff_mask r w).mpr h) ((holds_iff_mask r' w).mpr h')⟩

/-- Settles O9: each example is one evaluation of the decoder. -/
theorem encodingExamples : Obligations.EncodingExamples := by
  unfold Obligations.EncodingExamples
  decide

/-! ### The illegal words (30_encoding.md R117) -/

/-- What makes a word with its reserved bits 0 illegal, by its other fields: `IllegalWord` without its
reserved bits. -/
def IllegalFields (op : BitVec 8) (f : Bool) (rt rs rd : RegNum) : Prop :=
  op.toNat ∉ [0x01, 0x02, 0x03, 0x04, 0x05, 0x10, 0x11, 0x12, 0x13, 0x14, 0x20, 0x21, 0x30] ∨
  (f = true ∧ op.toNat ∈ [0x10, 0x11, 0x12, 0x13, 0x14, 0x21, 0x30]) ∨
  (rt ≠ 0 ∧ op.toNat ∈ [0x01, 0x05, 0x10, 0x11, 0x13, 0x20, 0x21, 0x30]) ∨
  (rs ≠ 0 ∧ op.toNat ∈ [0x21, 0x30]) ∨
  (rd ≠ 0 ∧ op.toNat ∈ [0x10, 0x20, 0x30]) ∨
  (RegNum.isEven rd = false ∧ op.toNat ∈ [0x11, 0x12, 0x13, 0x14, 0x21]) ∨
  (RegNum.isEven rs = false ∧ op.toNat ∈ [0x10, 0x11, 0x12, 0x13, 0x14, 0x20]) ∨
  (RegNum.isEven rt = false ∧ op.toNat ∈ [0x12])

/-- A register number is odd when bit 0 of its field is 1. -/
theorem isEven_field (w : Word32) (lo : Nat) :
    RegNum.isEven (w.extractLsb' lo 4).toFin = false ↔ w.getLsbD lo = true := by
  have hbit : ∀ x : BitVec 4, RegNum.isEven x.toFin = !x.getLsbD 0 := by decide
  rw [hbit, Bool.not_eq_false', BitVec.getLsbD_extractLsb']; simp

theorem illegalWord_iff (w : Word32) :
    IllegalWord w ↔ fieldRes w ≠ 0#11 ∨
      IllegalFields (fieldOp w) (fieldF w) (fieldRt w) (fieldRs w) (fieldRd w) := by
  simp only [IllegalWord, IllegalFields, ne_eq, zero_rd, zero_rs, zero_rt]
  simp only [fieldOp, fieldF, fieldRes, fieldRd, fieldRs, fieldRt, isEven_field]
  exact Iff.of_eq (by ac_rfl)

/-- By opcode, the fields that give no command are those R117 names. -/
theorem decodeFields_eq_none_iff (op : BitVec 8) (f : Bool) (rt rs rd : RegNum) :
    decodeFields op f rt rs rd = none ↔ IllegalFields op f rt rs rd := by
  unfold decodeFields IllegalFields
  split
  case h_14 => simp_all -- the opcode is not in the map
  all_goals
    rename_i hop
    simp [hop, imp_iff_not_or]

theorem decode_eq_none_iff_illegalWord (w : Word32) : decode w = none ↔ IllegalWord w := by
  rw [decode_eq, illegalWord_iff]
  by_cases hres : fieldRes w = 0#11
  · simp [hres, decodeFields_eq_none_iff]
  · simp [hres]

/-! ### The two steps of an illegal word (60_exceptions.md R261, R263) -/

/-- A host's write to CMD while the engine is idle issues the word. -/
theorem step_cmdWrite_idle {s : State} {off : Offset} {w : Word32} {rest : List Event}
    (hidle : s.busy = false) (hoff : SameWord off 0x00C#12) (hs : s.script = .hostWrite off w :: rest) :
    step s = .next (issue w { s with script := rest }) := by
  rw [step_cons hs, runEvent, hostWrite_congr hoff, hostWrite_cmd,
    cmdWrite_idle (s := { s with script := rest }) w hidle]

/-- The completion of an illegal word reports ILLEGAL and writes nothing. -/
theorem step_complete_illegal {s : State} {l : Latch} {rest : List Event} (hl : s.latch = some l)
    (hw : IllegalWord l.word) (hs : s.script = .complete :: rest) :
    step s = .next (completedWith 6#4 { s with script := rest }) := by
  rw [step_cons hs, runEvent, completion_some (s := { s with script := rest }) hl, completeWord,
    (decode_eq_none_iff_illegalWord _).mpr hw]
  rfl

/-- Settles O7: the decoder by its fields, then the issue and the completion of the word. -/
theorem illegalWords : Obligations.IllegalWords := by
  refine ⟨decode_eq_none_iff_illegalWord, fun s off w rest hidle hoff hw hs => ?_⟩
  exact ⟨_, _, step_cmdWrite_idle hidle hoff hs, rfl, step_complete_illegal rfl hw rfl,
    rfl, rfl, rfl, rfl, rfl⟩

end Sys2Proof.Machine

/-! PROOFS. The modular commands MRED, MADD, MSUB, MMUL and MINV (40_modular.md R140 to R152): their words,
their one test in common, the residues they write, and the errors of MINV in test order. -/

namespace Sys2Proof.Machine

/-- The words of a row decode to the row's command (30_encoding.md R115, R116). -/
theorem encodedAs_row {r : OpcodeRow} (hr : r ∈ opcodeTable) :
    EncodedAs r.value r.mask (instrOf r.name) := by
  obtain ⟨-, hrows, -⟩ := opcodeMap
  exact hrows r hr

/-! ### The family's template (40_modular.md R140) -/

section
variable {i : Instr} {s : State} {ms : ModSel} {rd : RegNum}

/-- MODULUS is the first test of every modular command (40_modular.md R141). -/
theorem exec_modular_zero {f : Nat → Except Err Nat}
    (hi : commandOutcome i s.operands = modularCommand s.operands ms rd f)
    (hp : s.operands.selected ms = 0) : exec i s = .next (completedWith 8#4 s) := by
  rw [exec_eq, hi, modularCommand_zero hp, complete_error]; rfl

/-- A modular command reports the error of its computation. -/
theorem exec_modular_error {f : Nat → Except Err Nat} {p : Nat} {e : Err}
    (hi : commandOutcome i s.operands = modularCommand s.operands ms rd f)
    (hsel : s.operands.selected ms = p) (hp : p ≠ 0) (hf : f p = .error e) :
    exec i s = .next (completedWith e.code s) := by
  subst hsel
  rw [exec_eq, hi, modularCommand_pos hp, hf]; rfl

/-- A modular command writes the canonical residue it computes to its destination, and nothing else. -/
theorem exec_modular_ok {f : Nat → Except Err Nat} {p v : Nat}
    (hi : commandOutcome i s.operands = modularCommand s.operands ms rd f)
    (hsel : s.operands.selected ms = p) (hf : f p = .ok v) (hv : v < p) :
    ∃ t, exec i s = .next t ∧ WritesOnly [rd] s t ∧ (t.data.w[rd]).toNat = v := by
  subst hsel
  have hout : commandOutcome i s.operands = .ok (.reg rd v) := by
    rw [hi, modularCommand_pos (Nat.ne_zero_of_lt hv), hf]; rfl
  refine ⟨_, exec_eq i s, ?_⟩
  rw [hout]
  exact ⟨writesOnly_reg rd v s, by rw [complete_reg_w, toNat_ofNat_of_lt hv (selected_le _ ms)]⟩

/-- A modular command that reduces an exact integer writes its canonical residue (40_modular.md R142). -/
theorem exec_modular_reduce {v : Int}
    (hi : commandOutcome i s.operands = modularCommand s.operands ms rd fun p => .ok (reduce v p))
    (hp : s.operands.selected ms ≠ 0) :
    ∃ t, exec i s = .next t ∧ WritesOnly [rd] s t ∧
      (t.data.w[rd]).toNat = reduce v (s.operands.selected ms) :=
  exec_modular_ok hi rfl rfl (reduce_lt v hp)

end

/-! ### What the residues are (40_modular.md R146 to R149) -/

theorem reduce_natCast_add (a b p : Nat) : reduce ((a : Int) + b) p = (a + b) % p := by
  rw [← Nat.cast_add, reduce_natCast]

theorem reduce_natCast_mul (a b p : Nat) : reduce ((a : Int) * b) p = a * b % p := by
  rw [← Nat.cast_mul, reduce_natCast]

/-- The residue of a difference, brought back to the minuend; the difference may be negative. -/
theorem reduce_sub_add_mod (a b : Nat) {p : Nat} (hp : p ≠ 0) :
    (reduce ((a : Int) - b) p + b) % p = a % p := by
  have hadd : (reduce ((a : Int) - b) p : Int) + b ≡ a [ZMOD p] := by
    simpa using (reduce_modEq ((a : Int) - b) hp).add_right (b : Int)
  exact Int.natCast_modEq_iff.mp (by exact_mod_cast hadd)

/-- A natural that is not 0 passes the sign tests of `inverse` (40_modular.md R143). -/
theorem inverse_natCast {k : Nat} (hk : k ≠ 0) (p : Nat) : inverse (k : Int) p = inversePos k p := by
  have hneg : ¬(k : Int) < 0 := by omega
  simp [inverse, hk, hneg]

/-! ### The five commands -/

/-- Settles O33: the residue of a register is the remainder of its natural value. -/
theorem mredResult : Obligations.MredResult := by
  refine ⟨encodedAs_row (r := ⟨.MRED, _, _⟩) (by decide), fun s ms rd rs =>
    ⟨exec_modular_zero rfl, fun hp => ?_⟩⟩
  rw [← reduce_natCast]
  exact exec_modular_reduce rfl hp

/-- Settles O34: the sum is exact before it is reduced. -/
theorem maddResult : Obligations.MaddResult := by
  refine ⟨encodedAs_row (r := ⟨.MADD, _, _⟩) (by decide), fun s ms rd rs rt =>
    ⟨exec_modular_zero rfl, fun hp => ?_⟩⟩
  rw [← reduce_natCast_add]
  exact exec_modular_reduce rfl hp

/-- Settles O35: the residue of the exact difference, which is the one d < p with d + W[rt] ≡ W[rs]. -/
theorem msubResult : Obligations.MsubResult := by
  refine ⟨encodedAs_row (r := ⟨.MSUB, _, _⟩) (by decide), fun s ms rd rs rt =>
    ⟨exec_modular_zero rfl, fun hp => ?_⟩⟩
  obtain ⟨t, hexec, hframe, hval⟩ :=
    exec_modular_reduce (i := .msub ms rd rs rt) (s := s) (ms := ms) (rd := rd) rfl hp
  exact ⟨t, hexec, hframe, hval ▸ reduce_lt _ hp, hval ▸ reduce_sub_add_mod _ _ hp⟩

/-- Settles O36: the product is exact before it is reduced. -/
theorem mmulResult : Obligations.MmulResult := by
  refine ⟨encodedAs_row (r := ⟨.MMUL, _, _⟩) (by decide), fun s ms rd rs rt =>
    ⟨exec_modular_zero rfl, fun hp => ?_⟩⟩
  rw [← reduce_natCast_mul]
  exact exec_modular_reduce rfl hp

/-- MINV reports the error that `inverse` ends with (40_modular.md R149). -/
theorem exec_minv_error {s : State} {ms : ModSel} {rd rs : RegNum} {p : Nat} {e : Err}
    (hsel : s.operands.selected ms = p) (hp : p ≠ 0) (h : inverse (s.operands.reg rs) p = .error e) :
    exec (.minv ms rd rs) s = .next (completedWith e.code s) :=
  exec_modular_error rfl hsel hp (by rw [h]; rfl)

/-- Settles O37: MODULUS is the template's test; the other clauses are the ways `inverse` of a natural can
end. -/
theorem minvResult : Obligations.MinvResult := by
  refine ⟨encodedAs_row (r := ⟨.MINV, _, _⟩) (by decide), fun s ms rd rs p k hsel hk => ?_⟩
  subst hk
  refine ⟨fun hp => exec_modular_zero rfl (hsel.trans hp), fun hp h0 => ?_, fun hp h0 hgcd => ?_,
    fun hp h0 => ?_, fun hp hgcd => ?_⟩
  · exact exec_minv_error hsel hp (by rw [h0]; exact inverse_zero p)
  · exact exec_minv_error hsel hp (by rw [inverse_natCast h0, inversePos_notInvertible hgcd])
  · subst hp
    exact exec_minv_error hsel one_ne_zero (by rw [inverse_natCast h0, inversePos_one])
  · have h0 : s.operands.reg rs ≠ 0 := by
      intro h0
      rw [h0, Nat.gcd_zero_left] at hgcd
      omega
    obtain ⟨m, hinv, hlt, hmul⟩ := inversePos_ok hp hgcd
    obtain ⟨t, hexec, hframe, hval⟩ :=
      exec_modular_ok (i := .minv ms rd rs) (s := s) (ms := ms) (rd := rd) (v := m) rfl hsel
        (by rw [inverse_natCast h0, hinv]; rfl) hlt
    exact ⟨t, hexec, hframe, hval ▸ hlt, hval ▸ hmul⟩

end Sys2Proof.Machine

/-! PROOFS. The curve commands PCHK, PNEG, PADD and PDBL (41_curve.md R170 to R179): what a command that answers
a point does, negation, every way the group law can end on raw pairs, and the points the commands write. -/

namespace Sys2Proof.Machine

/-! ### The template of the commands that write a point (41_curve.md R174) -/

/-- A pair of values that fit registers is read back from the destination. -/
theorem complete_pair (rd : RegNum) {R : Point} (hx : R.1 < 2 ^ 256) (hy : R.2 < 2 ^ 256) (s : State) :
    (complete (.ok (.pair rd R)) s).pair rd = R := by
  obtain ⟨hwx, hwy⟩ := complete_pair_w rd R s
  rw [State.pair, hwx, hwy, toNat_ofNat_of_lt hx le_rfl, toNat_ofNat_of_lt hy le_rfl]

section
variable {i : Instr} {s : State} {rd : RegNum} {r : Except Err Point}

/-- With the curve locked a command reports the error of its computation. -/
theorem exec_point_error {e : Err}
    (hi : commandOutcome i s.operands = requireLocked s.operands (r.map fun pt => .pair rd pt))
    (hl : s.operands.cfgLocked = true) (hr : r = .error e) :
    exec i s = .next (completedWith e.code s) := by
  rw [exec_eq, hi, requireLocked_locked hl, hr]; rfl

/-- With the curve locked a command writes the canonical point it computes, and nothing else. -/
theorem exec_point_ok {c : Curve} {R : Point}
    (hi : commandOutcome i s.operands = requireLocked s.operands (r.map fun pt => .pair rd pt))
    (hl : s.operands.cfgLocked = true) (hc : s.operands.curve = c) (hr : r = .ok R)
    (hx : R.1 < c.p) (hy : R.2 < c.p) :
    ∃ t, exec i s = .next t ∧ WritesOnly (pairRegs rd) s t ∧ t.pair rd = R := by
  have hout : commandOutcome i s.operands = .ok (.pair rd R) := by
    rw [hi, requireLocked_locked hl, hr]; rfl
  have hp : c.p ≤ 2 ^ 256 := hc ▸ curve_p_le s.operands
  refine ⟨_, exec_eq i s, ?_⟩
  rw [hout]
  exact ⟨writesOnly_pair rd R s, complete_pair rd (by omega) (by omega) s⟩

/-- A command that ends with ERR = 0 computed a point and wrote it. -/
theorem point_of_err_zero {t : State}
    (hi : commandOutcome i s.operands = requireLocked s.operands (r.map fun pt => .pair rd pt))
    (hexec : exec i s = .next t) (herr : t.status.err = 0#4) :
    ∃ R, r = .ok R ∧ t = complete (.ok (.pair rd R)) s := by
  rw [exec_eq] at hexec
  obtain rfl := Host.Outcome.next.inj hexec
  rw [complete_err] at herr
  cases hout : commandOutcome i s.operands with
  | error e => rw [hout] at herr; exact absurd herr (code_ne_zero e)
  | ok e =>
    obtain ⟨-, hmap⟩ := requireLocked_eq_ok (hi.symm.trans hout)
    obtain ⟨R, hr, rfl⟩ := except_map_eq_ok hmap
    exact ⟨R, hr, rfl⟩

end

/-! ### PCHK (41_curve.md R175) -/

/-- Settles O38: the bit PCHK writes is the on-curve test of the decoded pair. -/
theorem pchkResult : Obligations.PchkResult := by
  refine ⟨encodedAs_row (r := ⟨.PCHK, _, _⟩) (by decide), fun s rs =>
    ⟨exec_unlocked rfl, fun hl hp => ⟨_, exec_eq _ s, ?_⟩⟩⟩
  simp only [commandOutcome, cmdPchk, requireLocked_locked hl, complete_ok]
  exact ⟨completedOk_finish _ s, rfl, rfl, onCurve_decode_iff _ hp _⟩

/-! ### Negation (41_curve.md R176) -/

/-- The canonical negation of a pair, (x mod p, −y mod p) (41_curve.md R176). -/
def Curve.negated (c : Curve) (P : Point) : Point := (P.1 % c.p, reduce (-(P.2 : Int)) c.p)

section
variable {c : Curve} (hp : c.p ≠ 0) (P : Point)
include hp

theorem negatePoint_off (h : ¬c.Holds P.1 P.2) : negatePoint c P = .error .invalidPoint := by
  rw [negatePoint, if_neg (mt (onCurve_decode_iff c hp P).mp h)]

theorem negatePoint_on (h : c.Holds P.1 P.2) : negatePoint c P = .ok (c.negated P) := by
  rw [negatePoint, if_pos ((onCurve_decode_iff c hp P).mpr h), decodePoint_fst,
    reduce_congr (decodePoint_snd_modEq c hp P).neg, Curve.negated]

theorem negated_fst_lt : (c.negated P).1 < c.p := Nat.mod_lt _ (Nat.pos_of_ne_zero hp)

theorem negated_snd_lt : (c.negated P).2 < c.p := reduce_lt _ hp

theorem negated_snd_modEq : ((c.negated P).2 : Int) ≡ -(P.2 : Int) [ZMOD c.p] := reduce_modEq _ hp

/-- y and its negation add to 0 modulo p. -/
theorem negated_snd_add_mod : ((c.negated P).2 + P.2) % c.p = 0 := by
  have hsum : ((c.negated P).2 : Int) + P.2 ≡ 0 [ZMOD c.p] := by
    simpa using (negated_snd_modEq hp P).add_right (P.2 : Int)
  exact Int.natCast_modEq_iff.mp (by exact_mod_cast hsum)

/-- The negation lies on the curve with its point: the equation has y only squared. -/
theorem negated_holds (h : c.Holds P.1 P.2) : c.Holds (c.negated P).1 (c.negated P).2 := by
  have hneg : c.Holds P.1 (-(P.2 : Int)) := by
    rw [Curve.Holds, neg_sq]; exact h
  exact (Curve.Holds.congr (Int.natCast_modEq_iff.mpr (Nat.mod_modEq _ _)) (negated_snd_modEq hp P)).mpr hneg

/-- Negating twice reduces the pair (41_curve.md R179, item 1). -/
theorem negated_negated : c.negated (c.negated P) = (P.1 % c.p, P.2 % c.p) := by
  have hy : -((c.negated P).2 : Int) ≡ P.2 [ZMOD c.p] := by simpa using (negated_snd_modEq hp P).neg
  rw [Curve.negated, reduce_congr hy, reduce_natCast]
  simp only [Curve.negated, Nat.mod_mod]

end

/-- PNEG of an on-curve pair writes its canonical negation. -/
theorem exec_pneg_ok {s : State} {rd rs : RegNum} {c : Curve} {P : Point}
    (hl : s.operands.cfgLocked = true) (hc : s.operands.curve = c) (hp : c.p ≠ 0)
    (hP : s.operands.point rs = P) (h : c.Holds P.1 P.2) :
    ∃ t, exec (.pneg rd rs) s = .next t ∧ WritesOnly (pairRegs rd) s t ∧ t.pair rd = c.negated P := by
  subst hc hP
  exact exec_point_ok rfl hl rfl (negatePoint_on hp _ h) (negated_fst_lt hp _) (negated_snd_lt hp _)

/-- Settles O39: CONFIG by the guard, INVALID_POINT by the on-curve test, else the canonical negation. -/
theorem pnegResult : Obligations.PnegResult := by
  refine ⟨encodedAs_row (r := ⟨.PNEG, _, _⟩) (by decide), fun s rd rs c P hc hP =>
    ⟨exec_unlocked rfl, fun hl hp h => ?_, fun hl hp h => ?_⟩⟩
  · subst hc hP
    exact exec_point_error rfl hl (negatePoint_off hp _ h)
  · obtain ⟨t, hexec, hframe, hval⟩ := exec_pneg_ok (rd := rd) hl hc hp hP h
    exact ⟨t, hexec, hframe, hval ▸ rfl, hval ▸ negated_snd_lt hp P, hval ▸ negated_snd_add_mod hp P⟩

/-- A command that writes only registers leaves the curve an issue latches. -/
theorem curve_issue_of_writesOnly {written : List RegNum} {s t : State} (h : WritesOnly written s t)
    (w' : Word32) : (issue w' t).operands.curve = ⟨s.data.curveP.toNat, s.data.curveA.toNat,
      s.data.curveB.toNat⟩ := by
  simp only [operands_issue, Latch.curve, snapshot_data, h.data.curveP, h.data.curveA, h.data.curveB]

/-- Settles O40: the first negation leaves an on-curve pair and the locked curve, so the second one applies. -/
theorem negationIsInvolutive : Obligations.NegationIsInvolutive := by
  intro s w w' rd rd' rs hl hp0 hon
  have hp : (issue w s).operands.curve.p ≠ 0 := fun h => hp0 (BitVec.eq_of_toNat_eq h)
  obtain ⟨t, ht, hframe, hval⟩ := exec_pneg_ok (s := issue w s) (rd := rd) (rs := rs) hl rfl hp rfl hon
  obtain ⟨u, hu, huframe, huval⟩ := exec_pneg_ok (s := issue w' t) (rd := rd') (rs := rd)
    (hframe.cfgLocked.trans hl) (curve_issue_of_writesOnly hframe w') hp hval (negated_holds hp _ hon)
  exact ⟨t, u, ht, hu, huframe.completed.err, huval.trans (negated_negated hp _)⟩

/-! ### Sums by a line (41_curve.md R172) -/

/-- A sum depends on the residues of its points and of its slope only. -/
theorem IsSum.congr {c : Curve} {P P' Q Q' R : Point} {m m' : Int}
    (hPx : (P.1 : Int) ≡ P'.1 [ZMOD c.p]) (hPy : (P.2 : Int) ≡ P'.2 [ZMOD c.p])
    (hQx : (Q.1 : Int) ≡ Q'.1 [ZMOD c.p]) (hm : m ≡ m' [ZMOD c.p]) (h : IsSum c P Q m R) :
    IsSum c P' Q' m' R where
  xLt := h.xLt
  yLt := h.yLt
  x := h.x.trans (((hm.pow 2).sub hPx).sub hQx)
  y := h.y.trans ((hm.mul (hPx.sub_right _)).sub hPy)

/-- Two points have one canonical sum by a line of a given slope. -/
theorem IsSum.unique {c : Curve} {P Q R R' : Point} {m : Int} (h : IsSum c P Q m R)
    (h' : IsSum c P Q m R') : R = R' := by
  have hx : R.1 = R'.1 := (Int.natCast_modEq_iff.mp (h.x.trans h'.x.symm)).eq_of_lt_of_lt h.xLt h'.xLt
  have hy := h.y
  rw [hx] at hy
  exact Prod.ext hx ((Int.natCast_modEq_iff.mp (hy.trans h'.y.symm)).eq_of_lt_of_lt h.yLt h'.yLt)

/-- The sum by a chord may be taken from either end. -/
theorem IsSum.swap {c : Curve} {P Q R : Point} {m : Int}
    (hm : m * ((P.1 : Int) - Q.1) ≡ (P.2 : Int) - Q.2 [ZMOD c.p]) (h : IsSum c P Q m R) :
    IsSum c Q P m R where
  xLt := h.xLt
  yLt := h.yLt
  x := by rw [sub_right_comm]; exact h.x
  y := by
    have hends : m * ((P.1 : Int) - R.1) - P.2 ≡ m * ((Q.1 : Int) - R.1) - Q.2 [ZMOD c.p] :=
      calc m * ((P.1 : Int) - R.1) - P.2
        _ = m * ((P.1 : Int) - Q.1) + (m * ((Q.1 : Int) - R.1) - P.2) := by ring
        _ ≡ (P.2 : Int) - Q.2 + (m * ((Q.1 : Int) - R.1) - P.2) [ZMOD c.p] := hm.add_right _
        _ = m * ((Q.1 : Int) - R.1) - Q.2 := by ring
    exact h.y.trans hends

/-- The sum the model computes is the sum by a line (41_curve.md R172). -/
theorem isSum_sum {c : Curve} (hp : c.p ≠ 0) (P Q : Point) (m : Nat) :
    IsSum c P Q m (sumX c P.1 Q.1 m, sumY c P.1 P.2 (sumX c P.1 Q.1 m) m) where
  xLt := sumX_lt c hp _ _ _
  yLt := sumY_lt c hp _ _ _ _
  x := sumX_modEq c hp _ _ _
  y := sumY_modEq c hp _ _ _ _

/-- A unit has at most one quotient of a number modulo p. -/
theorem modEq_of_mul_unit {m m' k n : Int} {p : Nat} (hp : p ≠ 0) (hg : Int.gcd k p = 1)
    (h : m * k ≡ n [ZMOD p]) (h' : m' * k ≡ n [ZMOD p]) : m ≡ m' [ZMOD p] := by
  simpa [Int.gcd_comm (p : Int) k, hg] using
    Int.ModEq.cancel_right_div_gcd (by omega) (h.trans h'.symm)

/-! ### Every way the group law can end, on raw pairs (41_curve.md R172) -/

/-- The outcomes of `groupAdd` by the tests of 41_curve.md R172, said of the raw pairs modulo p; `AddCase` says
them of the decoded ones. The premises of two constructors exclude each other. -/
inductive SumCase (c : Curve) (P Q : Point) : Except Err Point → Prop where
  | offCurve (h : ¬(c.Holds P.1 P.2 ∧ c.Holds Q.1 Q.2)) : SumCase c P Q (.error .invalidPoint)
  | opposite (hP : c.Holds P.1 P.2) (hQ : c.Holds Q.1 Q.2) (hx : c.SameX P Q) (hy : ¬c.SameY P Q) :
      SumCase c P Q (.error .undefinedResult)
  | tangentZero (hP : c.Holds P.1 P.2) (hQ : c.Holds Q.1 Q.2) (hx : c.SameX P Q) (hy : c.SameY P Q)
      (h0 : P.2 % c.p = 0) : SumCase c P Q (.error .domain)
  | tangentNoUnit (hP : c.Holds P.1 P.2) (hQ : c.Holds Q.1 Q.2) (hx : c.SameX P Q) (hy : c.SameY P Q)
      (h0 : P.2 % c.p ≠ 0) (hg : Int.gcd (2 * (P.2 : Int)) c.p ≠ 1) :
      SumCase c P Q (.error .notInvertible)
  | tangent (hP : c.Holds P.1 P.2) (hQ : c.Holds Q.1 Q.2) (hx : c.SameX P Q) (hy : c.SameY P Q)
      (h0 : P.2 % c.p ≠ 0) (hg : Int.gcd (2 * (P.2 : Int)) c.p = 1) (m : Int) (R : Point)
      (hm : m * (2 * (P.2 : Int)) ≡ 3 * (P.1 : Int) ^ 2 + c.a [ZMOD c.p]) (hR : IsSum c P P m R) :
      SumCase c P Q (.ok R)
  | chordNoUnit (hP : c.Holds P.1 P.2) (hQ : c.Holds Q.1 Q.2) (hx : ¬c.SameX P Q)
      (hg : Int.gcd ((P.1 : Int) - Q.1) c.p ≠ 1) : SumCase c P Q (.error .notInvertible)
  | chord (hP : c.Holds P.1 P.2) (hQ : c.Holds Q.1 Q.2) (hx : ¬c.SameX P Q)
      (hg : Int.gcd ((P.1 : Int) - Q.1) c.p = 1) (m : Int) (R : Point)
      (hm : m * ((P.1 : Int) - Q.1) ≡ (P.2 : Int) - Q.2 [ZMOD c.p]) (hR : IsSum c P Q m R) :
      SumCase c P Q (.ok R)

/-- The cases determine the outcome: two sums of the same points have congruent slopes, and the premises of two
different constructors contradict each other. -/
theorem SumCase.unique {c : Curve} (hp : c.p ≠ 0) {P Q : Point} {r r' : Except Err Point}
    (h : SumCase c P Q r) (h' : SumCase c P Q r') : r = r' := by
  cases h with
  | tangent _ _ _ _ _ hg m R hm hR =>
    cases h' with
    | tangent _ _ _ _ _ _ m' R' hm' hR' =>
      exact congrArg _ ((hR.congr rfl rfl rfl (modEq_of_mul_unit hp hg hm hm')).unique hR')
    | _ => grind
  | chord _ _ _ hg m R hm hR =>
    cases h' with
    | chord _ _ _ _ m' R' hm' hR' =>
      exact congrArg _ ((hR.congr rfl rfl rfl (modEq_of_mul_unit hp hg hm hm')).unique hR')
    | _ => grind
  | _ => cases h' <;> grind

theorem Curve.SameX.modEq {c : Curve} {P Q : Point} (h : c.SameX P Q) : (P.1 : Int) ≡ Q.1 [ZMOD c.p] :=
  Int.natCast_modEq_iff.mpr h

theorem Curve.SameY.modEq {c : Curve} {P Q : Point} (h : c.SameY P Q) : (P.2 : Int) ≡ Q.2 [ZMOD c.p] :=
  Int.natCast_modEq_iff.mpr h

theorem gcd_eq_of_modEq {a b : Int} {p : Nat} (h : a ≡ b [ZMOD p]) : Int.gcd a p = Int.gcd b p := by
  rw [← Int.gcd_emod a, h, Int.gcd_emod]

/-- The outcome depends on the residues of the raw pairs only. -/
theorem SumCase.congr {c : Curve} {P P' Q Q' : Point} {r : Except Err Point}
    (hPx : c.SameX P P') (hPy : c.SameY P P') (hQx : c.SameX Q Q') (hQy : c.SameY Q Q')
    (h : SumCase c P Q r) : SumCase c P' Q' r := by
  have hholdsP := Curve.Holds.congr hPx.modEq hPy.modEq
  have hholdsQ := Curve.Holds.congr hQx.modEq hQy.modEq
  have hsamex : c.SameX P Q ↔ c.SameX P' Q' := by rw [Curve.SameX, Curve.SameX, hPx, hQx]
  have hsamey : c.SameY P Q ↔ c.SameY P' Q' := by rw [Curve.SameY, Curve.SameY, hPy, hQy]
  have hzero : P.2 % c.p = 0 ↔ P'.2 % c.p = 0 := by rw [hPy]
  have hdx := hPx.modEq.sub hQx.modEq
  have hdy := hPy.modEq.sub hQy.modEq
  have h2y := hPy.modEq.mul_left 2
  have hgcdx := gcd_eq_of_modEq hdx
  have hgcdy := gcd_eq_of_modEq h2y
  cases h with
  | offCurve h => exact .offCurve (by rwa [← hholdsP, ← hholdsQ])
  | opposite hP hQ hx hy => exact .opposite (hholdsP.mp hP) (hholdsQ.mp hQ) (hsamex.mp hx) (mt hsamey.mpr hy)
  | tangentZero hP hQ hx hy h0 =>
    exact .tangentZero (hholdsP.mp hP) (hholdsQ.mp hQ) (hsamex.mp hx) (hsamey.mp hy) (hzero.mp h0)
  | tangentNoUnit hP hQ hx hy h0 hg =>
    exact .tangentNoUnit (hholdsP.mp hP) (hholdsQ.mp hQ) (hsamex.mp hx) (hsamey.mp hy) (mt hzero.mpr h0)
      (hgcdy ▸ hg)
  | tangent hP hQ hx hy h0 hg m R hm hR =>
    exact .tangent (hholdsP.mp hP) (hholdsQ.mp hQ) (hsamex.mp hx) (hsamey.mp hy) (mt hzero.mpr h0)
      (hgcdy ▸ hg) m R
      ((h2y.mul_left m).symm.trans (hm.trans (((hPx.modEq.pow 2).mul_left 3).add_right _)))
      (hR.congr hPx.modEq hPy.modEq hPx.modEq rfl)
  | chordNoUnit hP hQ hx hg =>
    exact .chordNoUnit (hholdsP.mp hP) (hholdsQ.mp hQ) (mt hsamex.mpr hx) (hgcdx ▸ hg)
  | chord hP hQ hx hg m R hm hR =>
    exact .chord (hholdsP.mp hP) (hholdsQ.mp hQ) (mt hsamex.mpr hx) (hgcdx ▸ hg) m R
      ((hdx.mul_left m).symm.trans (hm.trans hdy)) (hR.congr hPx.modEq hPy.modEq hQx.modEq rfl)

/-- The tests and the sum do not depend on which point comes first: two points with the same coordinates may be
exchanged, and a chord may be taken from either end. -/
theorem SumCase.symm {c : Curve} {P Q : Point} {r : Except Err Point} (h : SumCase c P Q r) :
    SumCase c Q P r := by
  have hgcd : Int.gcd ((Q.1 : Int) - P.1) c.p = Int.gcd ((P.1 : Int) - Q.1) c.p := by
    rw [← neg_sub, Int.neg_gcd]
  have hcase := h
  cases h with
  | offCurve h => exact .offCurve (mt And.symm h)
  | opposite hP hQ hx hy => exact .opposite hQ hP hx.symm (mt Eq.symm hy)
  | tangentZero _ _ hx hy | tangentNoUnit _ _ hx hy | tangent _ _ hx hy =>
    exact hcase.congr hx hy hx.symm hy.symm
  | chordNoUnit hP hQ hx hg => exact .chordNoUnit hQ hP (mt Eq.symm hx) (hgcd ▸ hg)
  | chord hP hQ hx hg m R hm hR =>
    refine .chord hQ hP (mt Eq.symm hx) (hgcd.trans hg) m R ?_ (hR.swap hm)
    rw [← neg_sub (P.1 : Int), mul_neg, ← neg_sub (P.2 : Int)]
    exact hm.neg

/-- The cases of canonical pairs are those of `AddCase`, except modulo 1, where `AddCase.double` does not exclude
the pair (0, 0). -/
theorem AddCase.sumCase {c : Curve} (hp : 1 < c.p) {x1 y1 x2 y2 : Nat} {r : Except Err Point} (hx1 : x1 < c.p)
    (hy1 : y1 < c.p) (hx2 : x2 < c.p) (hy2 : y2 < c.p) (h : AddCase c x1 y1 x2 y2 r) :
    SumCase c (x1, y1) (x2, y2) r := by
  have hp0 : c.p ≠ 0 := Nat.ne_zero_of_lt hx1
  have hmodX : c.SameX (x1, y1) (x2, y2) ↔ x1 = x2 := by
    rw [Curve.SameX, Nat.mod_eq_of_lt hx1, Nat.mod_eq_of_lt hx2]
  have hmodY : c.SameY (x1, y1) (x2, y2) ↔ y1 = y2 := by
    rw [Curve.SameY, Nat.mod_eq_of_lt hy1, Nat.mod_eq_of_lt hy2]
  have hgcd : Int.gcd (2 * (y1 : Int)) c.p = Nat.gcd (2 * y1) c.p := by
    rw [← Int.gcd_natCast_natCast]; push_cast; rfl
  have hy0 : y1 % c.p = y1 := Nat.mod_eq_of_lt hy1
  cases h with
  | offCurve h => exact .offCurve h
  | opposite h1 h2 hx hy => exact .opposite h1 h2 (hmodX.mpr hx) (mt hmodY.mp hy)
  | doubleZero h1 hx hy h0 => subst hx hy; exact .tangentZero h1 h1 rfl rfl (hy0.trans h0)
  | doubleNoInverse h1 hx hy h0 hg =>
    subst hx hy
    exact .tangentNoUnit h1 h1 rfl rfl (hy0.trans_ne h0) (hgcd ▸ hg)
  | double h1 hx hy hg m hm =>
    subst hx hy
    have h0 : y1 ≠ 0 := by
      rintro rfl
      rw [Nat.mul_zero, Nat.gcd_zero_left] at hg
      omega
    exact .tangent h1 h1 rfl rfl (hy0.trans_ne h0) (hgcd.trans hg) m _ hm (isSum_sum hp0 (x1, y1) (x1, y1) m)
  | chordNoInverse h1 h2 hx hg => exact .chordNoUnit h1 h2 (mt hmodX.mp hx) hg
  | chord h1 h2 hx hg m hm =>
    exact .chord h1 h2 (mt hmodX.mp hx) hg m _ hm (isSum_sum hp0 (x1, y1) (x2, y2) m)

theorem decodePoint_fst_lt {c : Curve} (hp : c.p ≠ 0) (P : Point) : (decodePoint c P).1 < c.p :=
  reduce_lt (P.1 : Int) hp

theorem decodePoint_snd_lt {c : Curve} (hp : c.p ≠ 0) (P : Point) : (decodePoint c P).2 < c.p :=
  reduce_lt (P.2 : Int) hp

theorem decodePoint_sameX (c : Curve) (P : Point) : c.SameX (decodePoint c P) P := by
  rw [Curve.SameX, decodePoint_fst, Nat.mod_mod]

theorem decodePoint_sameY (c : Curve) (P : Point) : c.SameY (decodePoint c P) P := by
  rw [Curve.SameY, decodePoint_snd, Nat.mod_mod]

/-- Modulo 1 every pair is (0, 0), on the curve, and its tangent's denominator is 0. -/
theorem groupAdd_modulus_one {c : Curve} (hp : c.p = 1) (P Q : Point) :
    groupAdd c P Q = .error .domain := by
  have hdecode : ∀ P : Point, decodePoint c P = (0, 0) := fun P => by
    rw [decodePoint, reduce_natCast, reduce_natCast, hp, Nat.mod_one, Nat.mod_one]
  have hon : onCurve c 0 0 = true := by
    rw [onCurve_iff c (by omega), Curve.Holds, hp]
    exact Int.modEq_one
  have hslope : slope c 0 0 0 0 = .error .domain := by
    simp [slope, tangentSlope, inverse_zero, Except.map]
  simp [groupAdd, hdecode, addDecoded, hon, hslope]

/-- `groupAdd` ends in the case its raw pairs name: decoding keeps every test and every congruence. -/
theorem groupAdd_sumCase {c : Curve} (hp : c.p ≠ 0) (P Q : Point) : SumCase c P Q (groupAdd c P Q) := by
  by_cases h1 : c.p = 1
  · rw [groupAdd_modulus_one h1]
    refine .tangentZero ?_ ?_ ?_ ?_ ?_ <;>
      simp [Curve.Holds, Curve.SameX, Curve.SameY, h1, Int.modEq_one, Nat.mod_one]
  · exact ((groupAdd_case c hp P Q).sumCase (by omega) (decodePoint_fst_lt hp P) (decodePoint_snd_lt hp P)
      (decodePoint_fst_lt hp Q) (decodePoint_snd_lt hp Q)).congr
      (decodePoint_sameX c P) (decodePoint_sameY c P) (decodePoint_sameX c Q) (decodePoint_sameY c Q)

/-- A case that holds of two pairs is how `groupAdd` ends on them. -/
theorem SumCase.groupAdd_eq {c : Curve} (hp : c.p ≠ 0) {P Q : Point} {r : Except Err Point}
    (h : SumCase c P Q r) : groupAdd c P Q = r := (groupAdd_sumCase hp P Q).unique hp h

/-! ### PADD and PDBL (41_curve.md R177, R178) -/

/-- PDBL is PADD of a pair with itself (41_curve.md R178). -/
theorem exec_pdbl (s : State) (rd rs : RegNum) : exec (.pdbl rd rs) s = exec (.padd rd rs rs) s := by
  rw [exec_eq, exec_eq]; rfl

section
variable {s : State} {rd rs rt : RegNum} {c : Curve} {P Q : Point} (hl : s.operands.cfgLocked = true)
  (hc : s.operands.curve = c) (hp : c.p ≠ 0) (hP : s.operands.point rs = P)
include hl hc hp hP

theorem exec_padd_error {e : Err} (hQ : s.operands.point rt = Q) (h : SumCase c P Q (.error e)) :
    exec (.padd rd rs rt) s = .next (completedWith e.code s) := by
  subst hc hP hQ
  exact exec_point_error rfl hl (h.groupAdd_eq hp)

theorem exec_padd_ok {R : Point} (hQ : s.operands.point rt = Q) (h : SumCase c P Q (.ok R))
    (hx : R.1 < c.p) (hy : R.2 < c.p) :
    ∃ t, exec (.padd rd rs rt) s = .next t ∧ WritesOnly (pairRegs rd) s t ∧ t.pair rd = R := by
  subst hc hP hQ
  exact exec_point_ok rfl hl rfl (h.groupAdd_eq hp) hx hy

end

/-- A unit has a quotient of every number modulo p. -/
theorem exists_slope {k : Int} {p : Nat} (hp : p ≠ 0) (hg : Int.gcd k p = 1) (n : Int) :
    ∃ m : Nat, (m : Int) * k ≡ n [ZMOD p] := by
  by_cases h1 : p = 1
  · exact ⟨0, h1 ▸ Int.modEq_one⟩
  · obtain ⟨i, -, hi, -, -⟩ := inverse_ok (by omega) hg
    exact ⟨_, slope_mul hp hi⟩

/-- Settles O41: the chord's slope exists, and the sum by it is the case the operands name. -/
theorem paddChord : Obligations.PaddChord := by
  intro s rd rs rt c P Q hl hc hp hP hQ hPon hQon hx hg
  obtain ⟨m, hm⟩ := exists_slope hp hg ((P.2 : Int) - Q.2)
  have hR := isSum_sum hp P Q m
  obtain ⟨t, hexec, hframe, hval⟩ := exec_padd_ok (rd := rd) hl hc hp hP hQ
    (.chord hPon hQon hx hg m _ hm hR) hR.xLt hR.yLt
  exact ⟨t, m, hexec, hframe, hm, hval ▸ hR⟩

/-- PADD of two pairs with the same coordinates writes the tangent's point (41_curve.md R172). -/
theorem exec_padd_tangent {s : State} {rd rs rt : RegNum} {c : Curve} {P Q : Point}
    (hl : s.operands.cfgLocked = true) (hc : s.operands.curve = c) (hp : c.p ≠ 0)
    (hP : s.operands.point rs = P) (hQ : s.operands.point rt = Q) (hon : c.Holds P.1 P.2)
    (hg : Int.gcd (2 * (P.2 : Int)) c.p = 1) (h0 : P.2 % c.p ≠ 0) (hx : c.SameX P Q) (hy : c.SameY P Q) :
    ∃ (t : State) (m : Int), exec (.padd rd rs rt) s = .next t ∧ WritesOnly (pairRegs rd) s t ∧
      m * (2 * (P.2 : Int)) ≡ 3 * (P.1 : Int) ^ 2 + c.a [ZMOD c.p] ∧ IsSum c P P m (t.pair rd) := by
  obtain ⟨m, hm⟩ := exists_slope hp hg (3 * (P.1 : Int) ^ 2 + c.a)
  have hR := isSum_sum hp P P m
  have hQon := (Curve.Holds.congr hx.modEq hy.modEq).mp hon
  obtain ⟨t, hexec, hframe, hval⟩ := exec_padd_ok (rd := rd) hl hc hp hP hQ
    (.tangent hon hQon hx hy h0 hg m _ hm hR) hR.xLt hR.yLt
  exact ⟨t, m, hexec, hframe, hm, hval ▸ hR⟩

/-- Settles O42: PDBL is the case of PADD whose two operands are one register pair. -/
theorem paddPdblTangent : Obligations.PaddPdblTangent := by
  intro s rd rs rt c P Q hl hc hp hP hQ hon hg h0
  rw [exec_pdbl]
  exact ⟨exec_padd_tangent hl hc hp hP hP hon hg h0 rfl rfl, exec_padd_tangent hl hc hp hP hQ hon hg h0⟩

/-- Settles O43: each clause names a case of the group law; those of PDBL are PADD's for one pair. -/
theorem additionErrors : Obligations.AdditionErrors := by
  intro s rd rs rt c P Q hl hc hp hP hQ
  rw [exec_pdbl]
  have hpadd {e : Err} := exec_padd_error (rd := rd) (e := e) hl hc hp hP hQ
  have hpdbl {e : Err} := exec_padd_error (rd := rd) (e := e) hl hc hp hP hP
  have hsame (hx : c.SameX P Q) (hy : c.SameY P Q) := (Curve.Holds.congr hx.modEq hy.modEq).mp
  refine ⟨fun h => hpadd (.offCurve h), fun hPon hQon hx hy => hpadd (.opposite hPon hQon hx hy),
    fun hon hx hy h0 => hpadd (.tangentZero hon (hsame hx hy hon) hx hy h0),
    fun hon hx hy h0 hg => hpadd (.tangentNoUnit hon (hsame hx hy hon) hx hy h0 hg),
    fun hPon hQon hx hg => hpadd (.chordNoUnit hPon hQon hx hg),
    fun h => hpdbl (.offCurve fun ⟨hon, _⟩ => h hon),
    fun hon h0 => hpdbl (.tangentZero hon hon rfl rfl h0),
    fun hon h0 hg => hpdbl (.tangentNoUnit hon hon rfl rfl h0 hg)⟩

/-- Settles O45: the cases of the group law are symmetric, and they determine its outcome. -/
theorem paddCommutes : Obligations.PaddCommutes := by
  intro s rd rs rt hp
  have hcomm : groupAdd s.operands.curve (s.operands.point rs) (s.operands.point rt) =
      groupAdd s.operands.curve (s.operands.point rt) (s.operands.point rs) :=
    (groupAdd_sumCase hp _ _).symm.groupAdd_eq hp
  simp only [exec_eq, commandOutcome, cmdPadd, hcomm]

/-! ### The points that commands write (41_curve.md R173, R179) -/

/-- A point in the form every result has: canonical and on the curve. -/
def Curve.Valid (c : Curve) (R : Point) : Prop := R.1 < c.p ∧ R.2 < c.p ∧ c.Holds R.1 R.2

section
variable {c : Curve} (hp : c.p ≠ 0)
include hp

theorem decodePoint_valid {P : Point} (h : c.Holds P.1 P.2) : c.Valid (decodePoint c P) :=
  ⟨decodePoint_fst_lt hp P, decodePoint_snd_lt hp P,
    (Curve.Holds.congr (decodePoint_fst_modEq c hp P) (decodePoint_snd_modEq c hp P)).mpr h⟩

theorem negatePoint_valid {P R : Point} (h : negatePoint c P = .ok R) : c.Valid R := by
  by_cases hon : c.Holds P.1 P.2
  · rw [negatePoint_on hp P hon] at h
    obtain rfl := Except.ok.inj h
    exact ⟨negated_fst_lt hp P, negated_snd_lt hp P, negated_holds hp P hon⟩
  · rw [negatePoint_off hp P hon] at h; cases h

/-- A fold into a valid accumulator leaves a valid one. -/
theorem foldAddend_valid {acc acc' : Option Point} {addend : Point} (hacc : ∀ A ∈ acc, c.Valid A)
    (hadd : c.Valid addend) (h : foldAddend c acc addend = .ok acc') : ∀ A ∈ acc', c.Valid A := by
  cases acc with
  | none =>
    obtain rfl := Except.ok.inj h
    rintro A ⟨⟩
    exact hadd
  | some a =>
    obtain ⟨R, hR, rfl⟩ := except_map_eq_ok h
    rintro A ⟨⟩
    exact groupAdd_ok hp hR

/-- Every round keeps the accumulator and the addend valid (42_scalar.md R200). -/
theorem scalarLoop_valid {fuel n : Nat} {acc r : Option Point} {addend : Point}
    (hacc : ∀ A ∈ acc, c.Valid A) (hadd : c.Valid addend)
    (h : scalarLoop c fuel n acc addend = .ok r) : ∀ A ∈ r, c.Valid A := by
  induction fuel generalizing n acc addend with
  | zero => exact Except.ok.inj h ▸ hacc
  | succ fuel ih =>
    rw [scalarLoop] at h
    split at h
    · exact Except.ok.inj h ▸ hacc
    · split at h
      · cases h
      · rename_i acc' hfold
        have hacc' : ∀ A ∈ acc', c.Valid A := by
          split at hfold
          · exact foldAddend_valid hp hacc hadd hfold
          · exact Except.ok.inj hfold ▸ hacc
        split at h
        · cases h
        · rename_i addend' hdouble
          exact ih hacc' (groupAdd_ok hp hdouble) h

theorem scalarMul_valid {P R : Point} {n : Nat} (h : scalarMul c P n = .ok R) : c.Valid R := by
  unfold scalarMul at h
  split at h
  · cases h
  · rename_i hon
    have hP : c.Holds P.1 P.2 := (onCurve_decode_iff c hp P).mp (by simpa using hon)
    split at h
    · cases h
    · split at h
      · cases h
      · rename_i acc hloop
        have hvalid := scalarLoop_valid hp (by simp) (decodePoint_valid hp hP) hloop
        cases acc with
        | none => cases h
        | some A => exact Except.ok.inj h ▸ hvalid A rfl

end

/-- A command whose computation answers only valid points writes a valid one when it ends with ERR = 0. -/
theorem pair_valid_of_err_zero {i : Instr} {s t : State} {rd : RegNum} {r : Except Err Point}
    (hi : commandOutcome i s.operands = requireLocked s.operands (r.map fun pt => .pair rd pt))
    (hr : ∀ R, r = .ok R → s.operands.curve.Valid R) (hexec : exec i s = .next t)
    (herr : t.status.err = 0#4) : s.operands.curve.Valid (t.pair rd) := by
  obtain ⟨R, hR, rfl⟩ := point_of_err_zero hi hexec herr
  obtain ⟨hx, hy, -⟩ := hr R hR
  have hp := curve_p_le s.operands
  rw [complete_pair rd (by omega) (by omega)]
  exact hr R hR

/-- Settles O44: the group law, negation and, by induction on its rounds, the scalar loop answer valid points. -/
theorem curveResultsOnCurve : Obligations.CurveResultsOnCurve := by
  intro i s t rd rs rt hi hp hexec herr
  obtain rfl | rfl | rfl | rfl := hi
  · exact pair_valid_of_err_zero rfl (fun _ => negatePoint_valid hp) hexec herr
  · exact pair_valid_of_err_zero rfl (fun _ => groupAdd_ok hp) hexec herr
  · exact pair_valid_of_err_zero rfl (fun _ => groupAdd_ok hp) hexec herr
  · exact pair_valid_of_err_zero rfl (fun _ => scalarMul_valid hp) hexec herr

end Sys2Proof.Machine

/-! PROOFS. Scalar multiplication, PMUL (42_scalar.md R200 to R202): the loop of `scalarMul` as the rounds of
double-and-add over the bits of the unreduced scalar, the tests before it, and PMUL by 1. -/

namespace Sys2Proof.Machine

/-! ### One round (42_scalar.md R200) -/

/-- The first half of round k: the addend folded into the accumulator where bit k of the scalar is set. -/
def foldBit (c : Curve) (n k : Nat) (acc : Option Point) (addend : Point) : Except Err (Option Point) :=
  if n.testBit k then foldAddend c acc addend else .ok acc

section
variable {c : Curve} {n k : Nat} {acc : Option Point} {addend : Point}

/-- Before round k the loop holds n div 2^k: it folds by bit k of n, doubles the addend and goes on. -/
theorem scalarLoop_round {fuel : Nat} (hk : k < n.size) :
    scalarLoop c (fuel + 1) (n / 2 ^ k) acc addend =
      (foldBit c n k acc addend).bind fun acc' => (groupAdd c addend addend).bind fun addend' =>
        scalarLoop c fuel (n / 2 ^ (k + 1)) acc' addend' := by
  have hne : n / 2 ^ k ≠ 0 := (Nat.div_pos (Nat.lt_size.mp hk) (by positivity)).ne'
  have hbit : n.testBit k = true ↔ n / 2 ^ k % 2 = 1 := by
    rw [Nat.testBit_eq_decide_div_mod_eq, decide_eq_true_iff]
  rw [scalarLoop, if_neg hne, foldBit, Nat.div_div_eq_div_mul, ← pow_succ]
  simp only [hbit]
  cases if n / 2 ^ k % 2 = 1 then foldAddend c acc addend else .ok acc with
  | error e => rfl
  | ok acc' => cases groupAdd c addend addend <;> rfl

/-- Where n has reached 0 the loop is over, whatever fuel is left. -/
theorem scalarLoop_zero (fuel : Nat) : scalarLoop c fuel 0 acc addend = .ok acc := by
  cases fuel <;> rfl

/-- A fold is undefined only where it adds two points whose sum is undefined. -/
theorem foldBit_isOk (h : n.testBit k = true → ∀ a, acc = some a → ∃ r, groupAdd c a addend = .ok r) :
    ∃ acc', foldBit c n k acc addend = .ok acc' := by
  cases hbit : n.testBit k with
  | false => exact ⟨acc, by simp [foldBit, hbit]⟩
  | true =>
    cases acc with
    | none => exact ⟨some addend, by simp [foldBit, hbit, foldAddend]⟩
    | some a =>
      obtain ⟨r, hr⟩ := h hbit a rfl
      exact ⟨some r, by simp [foldBit, hbit, foldAddend, hr, Except.map]⟩

/-- A fold into a point ends with the error of its addition. -/
theorem foldBit_error {a : Point} {e : Err} (hbit : n.testBit k = true) (h : groupAdd c a addend = .error e) :
    foldBit c n k (some a) addend = .error e := by
  simp [foldBit, hbit, foldAddend, h, Except.map]

end

/-! ### The rounds of the loop -/

section
variable {c : Curve} {n k : Nat} {D : Nat → Point} {A : Nat → Option Point}

theorem Round.double_eq (h : Round c n D A k) : groupAdd c (D k) (D k) = .ok (D (k + 1)) := h.left

theorem Round.foldBit_eq (h : Round c n D A k) : foldBit c n k (A k) (D k) = .ok (A (k + 1)) := by
  obtain ⟨-, hclear, hassign, hfold⟩ := h
  cases hbit : n.testBit k with
  | false => simp [foldBit, hbit, hclear hbit]
  | true =>
    cases hA : A k with
    | none => simp [foldBit, hbit, foldAddend, hassign hbit hA]
    | some a =>
      obtain ⟨r, hr, hnext⟩ := hfold hbit a hA
      simp [foldBit, hbit, foldAddend, hr, hnext, Except.map]

/-- The loop follows the rounds as long as they are defined. -/
theorem scalarLoop_rounds (hk : k ≤ n.size) (h : ∀ j, j < k → Round c n D A j) (fuel : Nat) :
    scalarLoop c (fuel + k) n (A 0) (D 0) = scalarLoop c fuel (n / 2 ^ k) (A k) (D k) := by
  induction k generalizing fuel with
  | zero => rw [pow_zero, Nat.div_one, Nat.add_zero]
  | succ k ih =>
    have hround := h k (Nat.lt_succ_self k)
    calc scalarLoop c (fuel + (k + 1)) n (A 0) (D 0)
      _ = scalarLoop c (fuel + 1 + k) n (A 0) (D 0) := by rw [Nat.add_assoc, Nat.add_comm 1]
      _ = scalarLoop c (fuel + 1) (n / 2 ^ k) (A k) (D k) :=
        ih (by omega) (fun j hj => h j (by omega)) (fuel + 1)
      _ = scalarLoop c fuel (n / 2 ^ (k + 1)) (A (k + 1)) (D (k + 1)) := by
        rw [scalarLoop_round hk, hround.foldBit_eq, hround.double_eq]; rfl

end

theorem size_le_self (n : Nat) : n.size ≤ n := Nat.size_le.mpr Nat.lt_two_pow_self

theorem decodePoint_eq (c : Curve) (P : Point) : decodePoint c P = (P.1 % c.p, P.2 % c.p) :=
  Prod.ext (decodePoint_fst c P) (decodePoint_snd c P)

section
variable {c : Curve} {P : Point} {n : Nat}

/-- Where all rounds are defined, the loop ends with their accumulator. -/
theorem DoubleAndAdd.scalarLoop_eq {R : Point} (h : DoubleAndAdd c P n R) :
    scalarLoop c n n none (decodePoint c P) = .ok (some R) := by
  obtain ⟨D, A, hD, hA, hR, hround⟩ := h
  obtain ⟨fuel, hfuel⟩ := Nat.exists_eq_add_of_le' (size_le_self n)
  have hzero : n / 2 ^ n.size = 0 := Nat.div_eq_of_lt n.lt_size_self
  calc scalarLoop c n n none (decodePoint c P)
    _ = scalarLoop c (fuel + n.size) n (A 0) (D 0) := by rw [← hfuel, hA, hD, decodePoint_eq]
    _ = scalarLoop c fuel 0 (A n.size) (D n.size) := by rw [scalarLoop_rounds le_rfl hround, hzero]
    _ = .ok (some R) := by rw [scalarLoop_zero, hR]

/-- The loop ends with the error of the first addition that reports one. -/
theorem DoubleAndAddFails.scalarLoop_eq {e : Err} (h : DoubleAndAddFails c P n e) :
    scalarLoop c n n none (decodePoint c P) = .error e := by
  obtain ⟨k, D, A, hk, hD, hA, hround, hfail⟩ := h
  obtain ⟨fuel, hfuel⟩ := Nat.exists_eq_add_of_le' (hk.trans_le (size_le_self n))
  have hn : fuel + 1 + k = n := by omega
  have hlast : scalarLoop c (fuel + 1) (n / 2 ^ k) (A k) (D k) = .error e := by
    rw [scalarLoop_round hk]
    obtain ⟨hbit, a, ha, hfold⟩ | ⟨hfold, hdouble⟩ := hfail
    · rw [ha, foldBit_error hbit hfold]; rfl
    · obtain ⟨acc', hacc'⟩ := foldBit_isOk hfold
      rw [hacc', hdouble]; rfl
  calc scalarLoop c n n none (decodePoint c P)
    _ = scalarLoop c (fuel + 1 + k) n (A 0) (D 0) := by rw [hn, hA, hD, decodePoint_eq]
    _ = .error e := (scalarLoop_rounds hk.le hround (fuel + 1)).trans hlast

/-- By 1 the loop makes one round: it assigns the addend and still doubles it (42_scalar.md R201). -/
theorem scalarLoop_one (addend : Point) :
    scalarLoop c 1 1 none addend = (groupAdd c addend addend).map fun _ => some addend := by
  have hround := scalarLoop_round (c := c) (n := 1) (k := 0) (acc := none) (addend := addend) (fuel := 0)
    (by decide)
  rw [pow_zero, Nat.div_one] at hround
  rw [hround]
  cases groupAdd c addend addend <;> rfl

/-! ### scalarMul: the tests, then the loop -/

variable (hp : c.p ≠ 0)
include hp

theorem scalarMul_off (h : ¬c.Holds P.1 P.2) : scalarMul c P n = .error .invalidPoint := by
  have hoff := mt (onCurve_decode_iff c hp P).mp h
  rw [scalarMul, if_pos (by simpa using hoff)]

theorem scalarMul_on (h : c.Holds P.1 P.2) :
    scalarMul c P n = if n % c.p = 0 then .error .domain
      else (scalarLoop c n n none (decodePoint c P)).bind accumulated := by
  have hon := (onCurve_decode_iff c hp P).mpr h
  rw [scalarMul, if_neg (by simp [hon]), reduce_natCast]
  congr 1
  cases scalarLoop c n n none (decodePoint c P) <;> rfl

/-- Decoding its operands first does not change a sum (41_curve.md R171, R172). -/
theorem groupAdd_decodePoint (P Q : Point) :
    groupAdd c (decodePoint c P) (decodePoint c Q) = groupAdd c P Q :=
  ((groupAdd_sumCase hp P Q).congr (decodePoint_sameX c P).symm (decodePoint_sameY c P).symm
    (decodePoint_sameX c Q).symm (decodePoint_sameY c Q).symm).groupAdd_eq hp

/-- By 1 the decoded point comes back where the point can be doubled (42_scalar.md R201). -/
theorem scalarMul_one (hp1 : 1 < c.p) (h : c.Holds P.1 P.2) :
    scalarMul c P 1 = (groupAdd c P P).map fun _ => decodePoint c P := by
  rw [scalarMul_on hp h, if_neg (by rw [Nat.mod_eq_of_lt hp1]; decide), scalarLoop_one,
    groupAdd_decodePoint hp]
  cases groupAdd c P P <;> rfl

end

/-! ### PMUL (42_scalar.md R201) -/

section
variable {s : State} {rd rs rt : RegNum} {c : Curve} {P : Point} {n : Nat}
  (hl : s.operands.cfgLocked = true) (hc : s.operands.curve = c) (hP : s.operands.point rs = P)
  (hn : s.operands.reg rt = n)
include hl hc hP hn

theorem exec_pmul_error {e : Err} (h : scalarMul c P n = .error e) :
    exec (.pmul rd rs rt) s = .next (completedWith e.code s) := by
  subst hc hP hn
  exact exec_point_error rfl hl h

theorem exec_pmul_ok (hp : c.p ≠ 0) {R : Point} (h : scalarMul c P n = .ok R) :
    ∃ t, exec (.pmul rd rs rt) s = .next t ∧ WritesOnly (pairRegs rd) s t ∧ t.pair rd = R := by
  obtain ⟨hx, hy, -⟩ := scalarMul_valid hp h
  subst hc hP hn
  exact exec_point_ok rfl hl rfl h hx hy

end

/-- Settles O46: the loop follows the rounds to the scalar's last bit and ends with their accumulator. -/
theorem pmulResult : Obligations.PmulResult := by
  intro s rd rs rt c P n R hl hc hp hP hn hon hscalar hrounds
  refine exec_pmul_ok hl hc hP hn hp ?_
  rw [scalarMul_on hp hon, if_neg hscalar, hrounds.scalarLoop_eq]; rfl

/-- Settles O48: the loop follows the rounds to the first addition that reports an error. -/
theorem pmulLoopErrors : Obligations.PmulLoopErrors := by
  intro s rd rs rt c P n e hl hc hp hP hn hon hscalar hfails
  refine exec_pmul_error hl hc hP hn ?_
  rw [scalarMul_on hp hon, if_neg hscalar, hfails.scalarLoop_eq]; rfl

/-- Settles O49: PMUL by 1 ends as the doubling of the point does, which is a case of the group law. -/
theorem pmulByOne : Obligations.PmulByOne := by
  intro s rd rs rt c P hl hc hp1 hP hn hon
  have hp : c.p ≠ 0 := Nat.ne_zero_of_lt hp1
  have hmul := scalarMul_one hp hp1 hon
  constructor
  · intro h0
    rw [(SumCase.tangentZero hon hon rfl rfl h0).groupAdd_eq hp] at hmul
    exact exec_pmul_error hl hc hP hn hmul
  · intro h0 hg
    obtain ⟨m, hm⟩ := exists_slope hp hg (3 * (P.1 : Int) ^ 2 + c.a)
    rw [(SumCase.tangent hon hon rfl rfl h0 hg m _ hm (isSum_sum hp P P m)).groupAdd_eq hp] at hmul
    exact decodePoint_eq c P ▸ exec_pmul_ok hl hc hP hn hp hmul

/-- Settles O47: each clause is one of the two tests before the loop. -/
theorem pmulPreconditions : Obligations.PmulPreconditions := by
  intro s rd rs rt c P hl hc hp hP
  refine ⟨fun hoff => exec_pmul_error hl hc hP rfl (scalarMul_off hp hoff), fun hon h0 => ?_⟩
  exact exec_pmul_error hl hc hP rfl (by rw [scalarMul_on hp hon, if_pos h0])

end Sys2Proof.Machine

/-! PROOFS. The point codec (43_codec.md R220 to R230): what PSER leaves in BUF, what PPAR reads back and
when it refuses, the two round trips, and that a CTRL write does not reach a command in flight. -/

namespace Sys2Proof.Machine

/-! ### A completion by LATCH (60_exceptions.md R263) -/

/-- The outcome of the command in flight: ILLEGAL where the latched word is no command (30_encoding.md R117). -/
def Latch.outcome (l : Latch) : Except Err Effect :=
  match decode l.word with
  | none => .error .illegal
  | some i => commandOutcome i l

theorem completeWord_eq {s : State} {l : Latch} (hl : s.latch = some l) :
    completeWord l.word s = .next (complete l.outcome s) := by
  rw [completeWord, Latch.outcome]
  cases decode l.word with
  | none => rfl
  | some i => exact (exec_eq i s).trans (by rw [operands_some s hl])

/-- A scripted completion applies the outcome that LATCH determines. -/
theorem step_complete {s : State} {l : Latch} {rest : List Event} (hl : s.latch = some l)
    (hs : s.script = .complete :: rest) :
    step s = .next (complete l.outcome { s with script := rest }) := by
  rw [step_cons hs, runEvent, completion_some (s := { s with script := rest }) hl]
  exact completeWord_eq hl

theorem step_writeCtrl {s : State} {off : Offset} {v : Word32} {rest : List Event}
    (hoff : SameWord off 0x004#12) (hs : s.script = .hostWrite off v :: rest) :
    step s = .next (writeCtrl v { s with script := rest }) := by
  rw [step_cons hs, runEvent, hostWrite_congr hoff, hostWrite_ctrl]

/-- A completion and a write of CTRL do not meet: the one leaves CTRL, the other writes nothing else. -/
theorem complete_writeCtrl (r : Except Err Effect) (v : Word32) (s : State) :
    complete r (writeCtrl v s) = writeCtrl v (complete r s) := by
  cases r with
  | error _ => rfl
  | ok e => cases e <;> rfl

/-- Settles O17: the write keeps LATCH, so both completions have one outcome, and it commutes with theirs. -/
theorem strictSqrtTakenAtIssue : Obligations.StrictSqrtTakenAtIssue := by
  rintro s _ l off v rest hl hoff hs rfl
  have hafter : step (writeCtrl v { s with script := .complete :: rest }) =
      .next (writeCtrl v (complete l.outcome { s with script := rest })) := by
    rw [← complete_writeCtrl]
    exact step_complete hl rfl
  exact ⟨_, _, _, step_writeCtrl hoff hs, hafter, step_complete hl rfl, rfl, rfl, rfl, rfl, rfl⟩

/-! ### PSER (43_codec.md R220 to R222) -/

section
variable (x y : Nat)

theorem be32_getD {i : Nat} (h : i < 32) : (be32 x).getD i 0#8 = be32Byte x i := by
  rw [List.getD_eq_getElem _ _ (by simpa using h), be32_getElem x i h, be32Byte]

theorem serialize_x (c : Form) {i : Nat} (h : i < 32) :
    (serialize x y c).getD (1 + i) 0#8 = be32Byte x i := by
  rw [Nat.add_comm, ← be32_getD x h]
  cases c with
  | compressed => rfl
  | uncompressed => exact List.getD_append _ _ _ _ (by simpa using h)

theorem serialize_y {i : Nat} (h : i < 32) :
    (serialize x y .uncompressed).getD (33 + i) 0#8 = be32Byte y i := by
  have hpos : 33 + i = (32 + i) + 1 := by omega
  rw [hpos, ← be32_getD y h]
  exact (List.getD_append_right _ _ _ _ (by simp)).trans (by simp)

/-- Past the compressed form's 33 bytes there is none. -/
theorem serialize_compressed_past {k : Nat} (h : 33 ≤ k) :
    (serialize x y .compressed).getD k 0#8 = 0x00#8 :=
  List.getD_eq_default _ _ (by simpa using h)

end

/-- PSER always succeeds, with the serialised raw pair of LATCH (43_codec.md R222). -/
theorem exec_pser (c : Form) (rs : RegNum) (s : State) {P : Point} (hP : s.operands.point rs = P) :
    exec (.pser c rs) s = .next (complete (.ok (.buffer (serialize P.1 P.2 c))) s) := by
  subst hP
  exact exec_eq _ s

/-- Byte k of BUF after a command that writes it. -/
theorem complete_buffer_getElem (bytes : List Byte) (s : State) {k : Nat} (h : k < 65) :
    (complete (.ok (.buffer bytes)) s).data.buf[k] = bytes.getD k 0#8 :=
  bufferOf_getElem bytes k h

/-- Settles O50: byte k of BUF is byte k of the serialised pair, 0 past its end. -/
theorem pserResult : Obligations.PserResult := by
  refine ⟨encodedAs_row (r := ⟨.PSER, _, _⟩) (by decide), fun s c rs x y hP => ?_⟩
  have hbuf {k : Nat} (hk : k < 65) := complete_buffer_getElem (serialize x y c) s hk
  refine ⟨_, exec_pser c rs s hP, completedOk_finish _ s, rfl, rfl, rfl, fun i hi => ?_, ?_, ?_⟩
  · exact (hbuf (by omega)).trans (serialize_x x y c hi)
  · rintro rfl
    exact ⟨by simp [applyEffect], hbuf (by decide), fun k hk h33 =>
      (hbuf hk).trans (serialize_compressed_past x y h33)⟩
  · rintro rfl
    exact ⟨by simp [applyEffect], hbuf (by decide), fun i hi =>
      (hbuf (by omega)).trans (serialize_y x y hi)⟩

/-! ### The numbers in BUF (00_scope.md R13) -/

/-- `be` by its digits, the most significant first. -/
theorem be_eq_sum (bs : List Byte) :
    be bs = ∑ i ∈ Finset.range bs.length, (bs.getD i 0#8).toNat * 256 ^ (bs.length - 1 - i) := by
  induction bs with
  | nil => rfl
  | cons b bs ih =>
    rw [be_cons, ih, List.length_cons, Finset.sum_range_succ', Nat.add_comm]
    congr 1
    refine Finset.sum_congr rfl fun i _ => ?_
    rw [List.getD_cons_succ]
    congr 2
    omega

section
variable (buf : Vector Byte 65) {lo n : Nat}

/-- The bytes of a stretch of BUF are its big-endian digits. -/
theorem be_slice (h : lo + n ≤ 65) : be ((buf.toList.drop lo).take n) = bigEndian buf lo n := by
  have hlen : ((buf.toList.drop lo).take n).length = n := by simp; omega
  rw [be_eq_sum, hlen, bigEndian]
  refine Finset.sum_congr rfl fun i hi => ?_
  have hi : i < n := Finset.mem_range.mp hi
  have hbyte : ((buf.toList.drop lo).take n).getD i 0#8 = buf[lo + i]?.getD 0#8 := by
    simp [List.getD_eq_getElem?_getD, hi]
  rw [hbyte]

/-- A number of at most 32 bytes fits a register. -/
theorem bigEndian_lt (h : lo + n ≤ 65) (hn : n ≤ 32) : bigEndian buf lo n < 2 ^ 256 := by
  rw [← be_slice buf h]
  calc be ((buf.toList.drop lo).take n)
      < 256 ^ ((buf.toList.drop lo).take n).length := be_lt _
    _ ≤ 256 ^ 32 := Nat.pow_le_pow_right (by decide) ((List.length_take_le _ _).trans hn)
    _ = 2 ^ 256 := by norm_num

end

theorem parseX_bytes (o : Latch) : parseX o.bytes = bigEndian o.data.buf 1 32 :=
  be_slice o.data.buf (by decide)

theorem parseUncompressed_bytes (o : Latch) {len : Nat} (h33 : 33 ≤ len) (h65 : len ≤ 65) (x : Nat) :
    parseUncompressed o.bytes len x = (x, bigEndian o.data.buf 33 (len - 33)) := by
  rw [parseUncompressed, List.drop_take, Latch.bytes, be_slice _ (by omega)]

theorem lead_bytes (o : Latch) : o.bytes.getD 0 0#8 = o.data.buf[0] := by
  simp [Latch.bytes, List.getD_eq_getElem?_getD]

/-! ### The tests of PPAR (43_codec.md R223 to R227) -/

section
variable {c : Curve} {bytes : List Byte} {len x : Nat} {pre : Byte} {strict : Bool}

theorem parse_length_error (h : len < 33 ∨ 65 < len) :
    parse c bytes len strict = .error .encoding := if_pos h

theorem parse_uncompressed (h33 : 33 ≤ len) (h65 : len ≤ 65) (hlead : bytes.getD 0 0#8 = 0x04#8) :
    parse c bytes len strict = .ok (parseUncompressed bytes len (parseX bytes)) := by
  rw [parse, if_neg (by omega), if_pos hlead]

theorem parse_decompress (h33 : 33 ≤ len) (h65 : len ≤ 65) (hlead : bytes.getD 0 0#8 ≠ 0x04#8) :
    parse c bytes len strict = decompress c (parseX bytes) (bytes.getD 0 0#8) strict := by
  rw [parse, if_neg (by omega), if_neg hlead]

theorem decompress_unsupported (hs : strict = true) (hp : c.p % 4 ≠ 3) :
    decompress c x pre strict = .error .unsupported := by
  rw [decompress, if_pos (by simp [hs, hp])]

theorem decompress_ok (h : strict = true → c.p % 4 = 3) :
    decompress c x pre strict = .ok (x, matchParity c.p (computedRoot c x) pre) := by
  have hpass : ¬(strict && c.p % 4 != 3) = true := by simpa using h
  rw [decompress, if_neg hpass]

end

theorem matchParity_eq_ite (p y : Nat) (pre : Byte) :
    matchParity p y pre = if y % 2 = pre.toNat % 2 then y else p - y := ite_not ..

/-- The root chosen by parity is at most p (43_codec.md R227). -/
theorem matchParity_le {p y : Nat} (h : y < p) (pre : Byte) : matchParity p y pre ≤ p := by
  unfold matchParity
  split
  · exact Nat.sub_le p y
  · exact h.le

/-- A decompressed y fits a register (43_codec.md R227: it may be p itself). -/
theorem decompressed_lt (o : Latch) (hp : o.curve.p ≠ 0) (x : Nat) (pre : Byte) :
    matchParity o.curve.p (computedRoot o.curve x) pre < 2 ^ 256 :=
  (matchParity_le (computedRoot_lt _ hp x) pre).trans_lt o.data.curveP.isLt

/-! ### PPAR (43_codec.md R228) -/

section
variable {s : State} {rd : RegNum} (hl : s.operands.cfgLocked = true)
include hl

theorem exec_ppar_error {e : Err}
    (h : parse s.operands.curve s.operands.bytes s.operands.data.bufLen.toNat s.operands.strictSqrt =
      .error e) :
    exec (.ppar rd) s = .next (completedWith e.code s) :=
  exec_point_error rfl hl h

/-- PPAR writes the pair it parses, canonical or not, and nothing else. -/
theorem exec_ppar_ok {R : Point}
    (h : parse s.operands.curve s.operands.bytes s.operands.data.bufLen.toNat s.operands.strictSqrt =
      .ok R)
    (hx : R.1 < 2 ^ 256) (hy : R.2 < 2 ^ 256) :
    ∃ t, exec (.ppar rd) s = .next t ∧ WritesOnly (pairRegs rd) s t ∧ t.pair rd = R := by
  have hout : commandOutcome (.ppar rd) s.operands = .ok (.pair rd R) := by
    rw [commandOutcome, cmdPpar, requireLocked_locked hl, h]; rfl
  refine ⟨_, exec_eq _ s, ?_⟩
  rw [hout]
  exact ⟨writesOnly_pair rd R s, complete_pair rd hx hy s⟩

end

/-- Settles O51: the length is tested before the leading byte, and STRICT_SQRT on the decompression path. -/
theorem pparErrors : Obligations.PparErrors := by
  rintro s rd _ hl rfl
  refine ⟨fun h => exec_ppar_error hl (parse_length_error h), fun h33 h65 hlead hs hp => ?_⟩
  refine exec_ppar_error (e := .unsupported) hl ?_
  rw [parse_decompress h33 h65 (by rwa [lead_bytes]), decompress_unsupported hs hp]

/-- Settles O52: the two numbers are the digits of BUF, and each fits a register. -/
theorem pparUncompressed : Obligations.PparUncompressed := by
  rintro s rd _ hl rfl h33 h65 hlead
  refine exec_ppar_ok hl ?_ (bigEndian_lt _ (by omega) (by omega)) (bigEndian_lt _ (by omega) (by omega))
  rw [parse_uncompressed h33 h65 (by rwa [lead_bytes]), parseX_bytes, parseUncompressed_bytes _ h33 h65]

/-- Settles O53: the computed root is the power of R225, and its choice by parity that of R227. -/
theorem pparDecompress : Obligations.PparDecompress := by
  rintro s rd _ x root c hl rfl h33 h65 hlead rfl hp hstrict hx hroot
  rw [← computedRoot_eq] at hroot
  have hxlt : x < 2 ^ 256 := hx ▸ bigEndian_lt _ (by decide) (by decide)
  rw [hroot, ← matchParity_eq_ite]
  refine exec_ppar_ok hl ?_ hxlt (decompressed_lt _ hp _ _)
  rw [parse_decompress h33 h65 (by rwa [lead_bytes]), decompress_ok hstrict, parseX_bytes, ← hx, lead_bytes]

/-! ### The round trips (43_codec.md R230) -/

/-- PSER and then PPAR end with the pair that parsing the serialised one gives: PSER leaves the lock, the
curve and STRICT_SQRT, and BUF and BUF_LEN hold the serialised bytes. -/
theorem pser_then_ppar {s : State} (w w' : Word32) (rd rs : RegNum) (f : Form) {R : Point}
    (hl : s.status.cfgLocked = true)
    (hparse : parse (issue w s).operands.curve
      (bufferOf (serialize (s.pair rs).1 (s.pair rs).2 f)).toList
      (serialize (s.pair rs).1 (s.pair rs).2 f).length s.ctrl.strictSqrt = .ok R)
    (hx : R.1 < 2 ^ 256) (hy : R.2 < 2 ^ 256) :
    ∃ t u, exec (.pser f rs) (issue w s) = .next t ∧ exec (.ppar rd) (issue w' t) = .next u ∧
      u.status.err = 0#4 ∧ u.pair rd = R := by
  have ht := exec_pser f rs (issue w s) (P := s.pair rs) rfl
  generalize hbytes : serialize (s.pair rs).1 (s.pair rs).2 f = bytes at hparse ht
  have hlen : (BitVec.ofNat 7 bytes.length).toNat = bytes.length := by
    rw [← hbytes, length_serialize]
    cases f <;> rfl
  obtain ⟨u, hu, hframe, hval⟩ := exec_ppar_ok (rd := rd)
    (s := issue w' (complete (.ok (.buffer bytes)) (issue w s))) hl (hlen.symm ▸ hparse) hx hy
  exact ⟨_, u, ht, hu, hframe.completed.err, hval⟩

theorem pair_fst_lt (s : State) (r : RegNum) : (s.pair r).1 < 2 ^ 256 := BitVec.isLt _

theorem pair_snd_lt (s : State) (r : RegNum) : (s.pair r).2 < 2 ^ 256 := BitVec.isLt _

/-- Settles O54: the uncompressed form holds both coordinates whole. -/
theorem uncompressedRoundTrip : Obligations.UncompressedRoundTrip := fun s w w' rd rs hl =>
  pser_then_ppar w w' rd rs .uncompressed hl
    (parse_serialize_uncompressed _ (pair_fst_lt s rs) (pair_snd_lt s rs) _)
    (pair_fst_lt s rs) (pair_snd_lt s rs)

/-- For a prime p ≡ 3 (mod 4) the power of R225 squares to y²: r² = y^(p+1) = y² by Fermat. -/
theorem computedRoot_sq {c : Curve} [Fact c.p.Prime] (h3 : c.p % 4 = 3) {x y : Nat}
    (hon : c.Holds x y) : (computedRoot c x : ZMod c.p) ^ 2 = (y : ZMod c.p) ^ 2 := by
  have hcurve := (Curve.holds_iff_zmod c x y).mp hon
  push_cast at hcurve
  have hexp : 2 * ((c.p + 1) / 4 * 2) = c.p + 1 := by omega
  calc (computedRoot c x : ZMod c.p) ^ 2
      = (((y : ZMod c.p) ^ 2) ^ ((c.p + 1) / 4)) ^ 2 := by
        rw [computedRoot_eq, ZMod.natCast_mod, hcurve]; push_cast; rfl
    _ = (y : ZMod c.p) ^ (c.p + 1) := by rw [← pow_mul, ← pow_mul, hexp]
    _ = (y : ZMod c.p) ^ 2 := by rw [pow_succ, ZMod.pow_card, sq]

/-- The computed root of an on-curve x is the canonical y or p − y. -/
theorem computedRoot_eq_or_add_eq {c : Curve} (hp : c.p.Prime) (h3 : c.p % 4 = 3) {x y : Nat} (hy : y < c.p)
    (hon : c.Holds x y) : computedRoot c x = y ∨ computedRoot c x + y = c.p := by
  have := Fact.mk hp
  have hlt := computedRoot_lt c hp.ne_zero x
  rcases sq_eq_sq_iff_eq_or_eq_neg.mp (computedRoot_sq h3 hon) with h | h
  · exact .inl (((ZMod.natCast_eq_natCast_iff _ _ _).mp h).eq_of_lt_of_lt hlt hy)
  · have hsum : ((computedRoot c x + y : Nat) : ZMod c.p) = 0 := by
      rw [Nat.cast_add, h, neg_add_cancel]
    obtain ⟨k, hk⟩ := (ZMod.natCast_eq_zero_iff _ _).mp hsum
    have hk2 : k < 2 := by
      by_contra hge
      have := Nat.mul_le_mul_left c.p (not_lt.mp hge)
      omega
    interval_cases k <;> omega

/-- Of y and p − y, for an odd p, the parity of the leading byte picks y (43_codec.md R227). -/
theorem matchParity_eq_of_parity {p r y : Nat} {pre : Byte} (hp : p % 2 = 1) (h : r = y ∨ r + y = p)
    (hpre : pre.toNat % 2 = y % 2) : matchParity p r pre = y := by
  unfold matchParity
  split <;> omega

/-- The leading byte of the compressed form has the parity of y (43_codec.md R221). -/
theorem compressed_lead_parity (y : Nat) :
    (if y % 2 = 0 then 0x02#8 else 0x03#8 : Byte).toNat % 2 = y % 2 := by
  split
  · simp [*]
  · simp; omega

/-- Settles O55: the computed root is y up to sign, and the leading byte gives the sign. -/
theorem compressedRoundTrip : Obligations.CompressedRoundTrip := by
  rintro s w w' rd rs c hl hc hp h3 - hy hon
  refine pser_then_ppar w w' rd rs .compressed hl ?_ (pair_fst_lt s rs) (pair_snd_lt s rs)
  have hparity := matchParity_eq_of_parity (by omega) (computedRoot_eq_or_add_eq hp h3 hy hon)
    (compressed_lead_parity (s.pair rs).2)
  rw [hc, length_serialize, parse_serialize_compressed _ (pair_fst_lt s rs), decompress_ok fun _ => h3, hparity]

end Sys2Proof.Machine

/-! PROOFS. The configuration command CFG (44_config.md R250): its outcome in test order, and what a
completion leaves of it. -/

namespace Sys2Proof.Machine

/-! ### The outcome of CFG, one lemma per branch -/

section
variable {o : Latch}

theorem cmdCfg_locked (hl : o.cfgLocked = true) : cmdCfg o = .error .config := if_pos hl

theorem cmdCfg_zero (hl : o.cfgLocked = false) (hp : o.curve.p = 0) : cmdCfg o = .error .modulus := by
  rw [cmdCfg, if_neg (Bool.eq_false_iff.mp hl), if_pos hp]

theorem cmdCfg_ok (hl : o.cfgLocked = false) (hp : o.curve.p ≠ 0) : cmdCfg o = .ok .lock := by
  rw [cmdCfg, if_neg (Bool.eq_false_iff.mp hl), if_neg hp]

end

/-- CFG completes with the outcome its latched operands give. -/
theorem exec_cfg {s : State} {r : Except Err Effect} (h : cmdCfg s.operands = r) :
    exec .cfg s = .next (complete r s) := by
  subst h
  exact exec_eq .cfg s

/-- Settles O56: the lock is tested before CURVE_P, and success writes the lock alone. -/
theorem cfgResult : Obligations.CfgResult := by
  refine ⟨encodedAs_row (r := ⟨.CFG, _, _⟩) (by decide), fun s =>
    ⟨fun hl => ?_, fun hl hp => ?_, fun hl hp => ?_⟩⟩
  · exact exec_cfg (cmdCfg_locked hl)
  · exact exec_cfg (cmdCfg_zero hl hp)
  · exact ⟨_, exec_cfg (cmdCfg_ok hl hp), completedOk_finish .lock s, rfl, rfl, rfl⟩

end Sys2Proof.Machine

/-! PROOFS. Issue, completion and the error codes (60_exceptions.md R260 to R271): what an issue latches, what a
completion leaves, when a step stops, the codes of each command, the interrupt output, and the invariant. -/

namespace Sys2Proof.Machine

/-! ### Issue (60_exceptions.md R261, R262) -/

/-- Settles O11: the write of CMD is the issue of its word, which touches nothing but LATCH, CMD and DONE. -/
theorem issueTakesSnapshot : Obligations.IssueTakesSnapshot := fun _ _ _ _ hidle hoff hs =>
  ⟨_, step_cmdWrite_idle hidle hoff hs, rfl, rfl, rfl, rfl, rfl, rfl, rfl⟩

/-- Settles O12: the operands of a command just issued are the snapshot's fields. -/
theorem operandsAtIssue : Obligations.OperandsAtIssue := by
  intro s w
  refine ⟨fun _ => rfl, ?_, rfl, rfl, rfl, rfl, rfl, rfl, rfl⟩
  rintro r _ rfl _
  rfl

/-! ### Engine steps (60_exceptions.md R260, R263, R264) -/

/-- The engine step of a latched command word is the command's meaning (30_encoding.md R116). -/
theorem completion_decoded {s : State} {l : Latch} {i : Instr} (hl : s.latch = some l)
    (hd : decode l.word = some i) : completion s = exec i s := by
  rw [completion_some hl, completeWord, hd]

theorem step_complete_decoded {s : State} {l : Latch} {i : Instr} {rest : List Event}
    (hl : s.latch = some l) (hd : decode l.word = some i) (hs : s.script = .complete :: rest) :
    step s = exec i { s with script := rest } := by
  rw [step_cons hs, runEvent, completion_decoded (s := { s with script := rest }) hl hd]

theorem decode_tableWord {nbits w : Nat} {i : Instr} (h : decodeTableWord nbits w = some i) :
    decode (tableWord nbits w) = some i := by
  rw [decodeTableWord] at h
  split at h
  · exact h
  · cases h

/-- Settles O10: each of the three is the engine step of a latched word, which is that of its command. -/
theorem stepRunsDecoded : Obligations.StepRunsDecoded := by
  refine ⟨fun s l i rest hl hd hs => step_complete_decoded hl hd hs, fun s l i hl hd hs => ?_,
    fun s nbits w i hd => ?_⟩
  · rw [step_nil hs, unscripted, busy_some s hl, if_pos rfl, completion_decoded hl hd]
  · exact step_complete_decoded (s := s.withFetchWord nbits w) rfl (decode_tableWord hd) rfl

/-- Settles O13: the completion's outcome is an error or an effect, and only an effect writes. -/
theorem noPartialResult : Obligations.NoPartialResult := by
  intro s l rest hl hs
  obtain ⟨hctrl, hcmd, -⟩ := complete_kept l.outcome { s with script := rest }
  obtain ⟨hlatch, hdone⟩ := complete_done l.outcome { s with script := rest }
  refine ⟨_, step_complete hl hs, busy_none _ hlatch, hdone, hcmd, hctrl, fun herr => ?_⟩
  rw [complete_err_ne_zero herr]
  exact ⟨rfl, rfl⟩

/-- Settles O14: of the cases of a step one is a fault and none a refusal. -/
theorem onlyDisabledCompletionStops : Obligations.OnlyDisabledCompletionStops := by
  refine ⟨step_ne_refused, fun s f => ⟨fun h => ?_, ?_⟩⟩
  · have hstep := step_case s
    rw [h] at hstep
    cases hstep with
    | notEnabled hs hl => exact ⟨rfl, busy_none s hl, _, hs⟩
  · rintro ⟨rfl, hidle, rest, hs⟩
    rw [step_cons hs, runEvent,
      completion_none (s := { s with script := rest }) ((busy_eq_false_iff s).mp hidle)]

/-! ### Every command completes (60_exceptions.md R264) -/

/-- A host access or a reset is taken off the script, and the machine goes on. -/
theorem step_of_ne_complete {s : State} {e : Event} {rest : List Event} (hs : s.script = e :: rest)
    (he : e ≠ .complete) : ∃ t, step s = .next t ∧ t.script = rest := by
  rw [step_cons hs]
  cases e with
  | complete => exact absurd rfl he
  | hostRead off => exact ⟨_, rfl, rfl⟩
  | reset => exact ⟨_, rfl, rfl⟩
  | hostWrite off v =>
    obtain ⟨hscript, -⟩ := hostWrite_kept off v { s with script := rest }
    exact ⟨_, rfl, hscript⟩

/-- With nothing scripted one step ends the BUSY period, if there is one (log entry 2). -/
theorem step_unscripted {s : State} (hs : s.script = []) :
    ∃ t, step s = .next t ∧ t.busy = false ∧ t.script = [] := by
  rw [step_nil hs, unscripted]
  cases hl : s.latch with
  | none =>
    rw [busy_none s hl]
    exact ⟨s, rfl, busy_none s hl, hs⟩
  | some l =>
    obtain ⟨-, -, hscript, -⟩ := complete_kept l.outcome s
    obtain ⟨hlatch, -⟩ := complete_done l.outcome s
    rw [busy_some s hl, if_pos rfl, completion_some hl, completeWord_eq hl]
    exact ⟨_, rfl, busy_none _ hlatch, hscript.trans hs⟩

/-- A run begins with its first step. -/
theorem run_succ_of_step {s t : State} (h : step s = .next t) (k : Nat) :
    Host.Core.run Sys2Proof.core (k + 1) s = Host.Core.run Sys2Proof.core k t := by
  have hcore : Sys2Proof.core.step s = .next t := h
  simp only [Host.Core.run, hcore]

/-- Settles O15, by induction on the script: each entry goes on, and the step after the last completes. -/
theorem everyCommandCompletes : Obligations.EveryCommandCompletes := by
  intro s h
  generalize hs : s.script = es at h
  induction es generalizing s with
  | nil =>
    obtain ⟨t, ht, hidle, hscript⟩ := step_unscripted hs
    exact ⟨t, run_succ_of_step ht 0, hidle, hscript⟩
  | cons e rest ih =>
    obtain ⟨he, hrest⟩ := List.forall_mem_cons.mp h
    obtain ⟨t, ht, hscript⟩ := step_of_ne_complete hs he
    rw [List.length_cons, run_succ_of_step ht]
    exact ih t hscript hrest

/-! ### The outcome by LATCH (60_exceptions.md R263, 00_scope.md R14) -/

section
variable (r : Except Err Effect) (s s' : State)

/-- One outcome writes a register alike in two states, or leaves it in both. -/
theorem complete_w_alike (q : RegNum) :
    (complete r s).data.w[q] = (complete r s').data.w[q] ∨
    ((complete r s).data.w[q] = s.data.w[q] ∧ (complete r s').data.w[q] = s'.data.w[q]) := by
  cases r with
  | error _ => exact .inr ⟨rfl, rfl⟩
  | ok e =>
    cases e with
    | onCurve | buffer | lock => exact .inr ⟨rfl, rfl⟩
    | reg rd v =>
      simp only [complete_ok, finish_data, applyEffect, writeReg_w]
      split_ifs
      · exact .inl rfl
      · exact .inr ⟨rfl, rfl⟩
    | pair rd pt =>
      simp only [complete_ok, finish_data, applyEffect, writePair_w]
      split_ifs
      · exact .inl rfl
      · exact .inl rfl
      · exact .inr ⟨rfl, rfl⟩

/-- One outcome writes BUF with BUF_LEN alike in two states, or leaves them in both. -/
theorem complete_buffer_alike :
    ((complete r s).data.buf = (complete r s').data.buf ∧
      (complete r s).data.bufLen = (complete r s').data.bufLen) ∨
    ((complete r s).data.buf = s.data.buf ∧ (complete r s).data.bufLen = s.data.bufLen ∧
      (complete r s').data.buf = s'.data.buf ∧ (complete r s').data.bufLen = s'.data.bufLen) := by
  cases r with
  | error _ => exact .inr ⟨rfl, rfl, rfl, rfl⟩
  | ok e =>
    cases e with
    | buffer => exact .inl ⟨rfl, rfl⟩
    | reg | pair | onCurve | lock => exact .inr ⟨rfl, rfl, rfl, rfl⟩

/-- One outcome writes ONCURVE alike in two states, or leaves it in both. -/
theorem complete_onCurve_alike :
    (complete r s).status.onCurve = (complete r s').status.onCurve ∨
    ((complete r s).status.onCurve = s.status.onCurve ∧
      (complete r s').status.onCurve = s'.status.onCurve) := by
  cases r with
  | error _ => exact .inr ⟨rfl, rfl⟩
  | ok e =>
    cases e with
    | onCurve => exact .inl rfl
    | reg | pair | buffer | lock => exact .inr ⟨rfl, rfl⟩

/-- One outcome writes CFG_LOCKED alike in two states, or leaves it in both. -/
theorem complete_cfgLocked_alike :
    (complete r s).status.cfgLocked = (complete r s').status.cfgLocked ∨
    ((complete r s).status.cfgLocked = s.status.cfgLocked ∧
      (complete r s').status.cfgLocked = s'.status.cfgLocked) := by
  cases r with
  | error _ => exact .inr ⟨rfl, rfl⟩
  | ok e =>
    cases e with
    | lock => exact .inl rfl
    | reg | pair | buffer | onCurve => exact .inr ⟨rfl, rfl⟩

end

/-- Settles O16: one latch gives one outcome, and an outcome fixes what it writes. -/
theorem outcomeDependsOnLatchOnly : Obligations.OutcomeDependsOnLatchOnly := by
  intro i s s' t t' l hl hl' ht ht'
  rw [exec_eq, operands_some _ hl] at ht
  rw [exec_eq, operands_some _ hl'] at ht'
  obtain rfl := Host.Outcome.next.inj ht
  obtain rfl := Host.Outcome.next.inj ht'
  exact ⟨by rw [complete_err, complete_err], complete_w_alike _ s s', complete_buffer_alike _ s s',
    complete_onCurve_alike _ s s', complete_cfgLocked_alike _ s s'⟩

/-! ### The errors of the shared operations -/

theorem except_map_eq_error {α β : Type} {f : α → β} {r : Except Err α} {e : Err}
    (h : r.map f = .error e) : r = .error e := by
  cases r with
  | error _ => exact congrArg Except.error (Except.error.inj h)
  | ok _ => cases h

/-- A command guarded by CFG_LOCKED fails with CONFIG, or as its computation does on a locked curve
(41_curve.md R174). -/
theorem requireLocked_eq_error {o : Latch} {r : Except Err Effect} {e : Err}
    (h : requireLocked o r = .error e) : e = .config ∨ (o.cfgLocked = true ∧ r = .error e) := by
  cases hl : o.cfgLocked with
  | false =>
    rw [requireLocked_unlocked hl] at h
    exact .inl (Except.error.inj h).symm
  | true => exact .inr ⟨rfl, requireLocked_locked hl r ▸ h⟩

/-- A guarded command that answers a point fails with CONFIG, or as its computation does. -/
theorem requireLocked_map_error_mem {o : Latch} {rd : RegNum} {r : Except Err Point} {e : Err}
    {errs : List Err} (h : requireLocked o (r.map fun pt => .pair rd pt) = .error e)
    (hr : o.cfgLocked = true → r = .error e → e ∈ errs) : e ∈ Err.config :: errs := by
  rcases requireLocked_eq_error h with rfl | ⟨hl, hmap⟩
  · exact List.mem_cons_self
  · exact List.mem_cons_of_mem _ (hr hl (except_map_eq_error hmap))

/-- A modular command fails with MODULUS, or as its computation does (40_modular.md R140). -/
theorem modularCommand_error_mem {o : Latch} {ms : ModSel} {rd : RegNum} {f : Nat → Except Err Nat}
    {e : Err} {errs : List Err} (h : modularCommand o ms rd f = .error e)
    (hf : ∀ p ≠ 0, f p = .error e → e ∈ errs) : e ∈ Err.modulus :: errs := by
  by_cases h0 : o.selected ms = 0
  · rw [modularCommand_zero h0] at h
    exact Except.error.inj h ▸ List.mem_cons_self
  · rw [modularCommand_pos h0] at h
    exact List.mem_cons_of_mem _ (hf _ h0 (except_map_eq_error h))

theorem inverse_error_mem {k : Int} {p : Nat} {e : Err} (hp : p ≠ 0) (h : inverse k p = .error e) :
    e ∈ [Err.domain, .notInvertible, .assertion] := by
  rcases inverse_cases k hp with ⟨-, he⟩ | ⟨-, -, he⟩ | ⟨-, -, he⟩ | ⟨-, -, m, he, -⟩
  · cases he.symm.trans h; decide
  · cases he.symm.trans h; decide
  · cases he.symm.trans h; decide
  · cases he.symm.trans h

/-- The square root's one test is that of STRICT_SQRT, and the length is the one other test
(43_codec.md R223, R226). -/
theorem parse_error_mem {c : Curve} {bytes : List Byte} {len : Nat} {strict : Bool} {e : Err}
    (h : parse c bytes len strict = .error e) : e ∈ [Err.encoding, .unsupported] := by
  unfold parse decompress at h
  split_ifs at h
  all_goals
    cases h
    decide

/-- The conditions an addition of points can end in (41_curve.md R172). -/
def sumErrors : List Err := [.invalidPoint, .undefinedResult, .domain, .notInvertible]

section
variable {c : Curve} {P Q : Point} {e : Err}

theorem negatePoint_error (h : negatePoint c P = .error e) : e = .invalidPoint := by
  unfold negatePoint at h
  split at h
  · cases h
  · exact (Except.error.inj h).symm

variable (hp : c.p ≠ 0)
include hp

theorem groupAdd_error_mem (h : groupAdd c P Q = .error e) : e ∈ sumErrors := by
  have hcase := groupAdd_sumCase hp P Q
  rw [h] at hcase
  cases hcase with
  | offCurve | opposite | tangentZero | tangentNoUnit | chordNoUnit => decide

/-- A point added to itself is never its own opposite (41_curve.md R178). -/
theorem groupAdd_self_error_mem (h : groupAdd c P P = .error e) :
    e ∈ [Err.invalidPoint, .domain, .notInvertible] := by
  have hcase := groupAdd_sumCase hp P P
  rw [h] at hcase
  cases hcase with
  | opposite _ _ _ hy => exact absurd rfl hy
  | offCurve | tangentZero | tangentNoUnit | chordNoUnit => decide

theorem foldAddend_error_mem {acc : Option Point} {addend : Point}
    (h : foldAddend c acc addend = .error e) : e ∈ sumErrors := by
  cases acc with
  | none => cases h
  | some a => exact groupAdd_error_mem hp (except_map_eq_error h)

/-- Every error of the loop is that of an addition (42_scalar.md R200). -/
theorem scalarLoop_error_mem {fuel n : Nat} {acc : Option Point} {addend : Point}
    (h : scalarLoop c fuel n acc addend = .error e) : e ∈ sumErrors := by
  induction fuel generalizing n acc addend with
  | zero => cases h
  | succ fuel ih =>
    rw [scalarLoop] at h
    split at h
    · cases h
    · split at h
      · rename_i e' hfold
        obtain rfl := Except.error.inj h
        split at hfold
        · exact foldAddend_error_mem hp hfold
        · cases hfold
      · split at h
        · rename_i e' hdouble
          obtain rfl := Except.error.inj h
          exact groupAdd_error_mem hp hdouble
        · exact ih h

/-- The tests of `scalarMul`, then the errors of its loop, which ends with an accumulator (42_scalar.md R200). -/
theorem scalarMul_error_mem {n : Nat} (h : scalarMul c P n = .error e) :
    e ∈ [Err.invalidPoint, .domain, .undefinedResult, .notInvertible] := by
  unfold scalarMul at h
  split at h
  · cases h; decide
  · split at h
    · cases h; decide
    · rename_i hn
      split at h
      · rename_i e' hloop
        obtain rfl := Except.error.inj h
        exact (List.Perm.cons _ (List.Perm.swap _ _ _)).mem_iff.mp (scalarLoop_error_mem hp hloop)
      · rename_i acc hloop
        have hn0 : n ≠ 0 := fun h0 => hn (by rw [h0, reduce_natCast, Nat.zero_mod])
        obtain ⟨A, rfl⟩ := Option.isSome_iff_exists.mp
          (scalarLoop_isSome c n n none _ acc le_rfl (.inl hn0) hloop)
        cases h

end

/-! ### The codes of the commands (60_exceptions.md R268) -/

theorem cmdCfg_error_mem {o : Latch} {e : Err} (h : cmdCfg o = .error e) :
    e ∈ [Err.config, .modulus] := by
  unfold cmdCfg at h
  split_ifs at h
  all_goals
    cases h
    decide

/-- A command fails with a condition listed for it, where a latched lock comes with p ≥ 1. -/
theorem commandOutcome_error_mem {i : Instr} {o : Latch} {e : Err}
    (hp : o.cfgLocked = true → o.curve.p ≠ 0) (h : commandOutcome i o = .error e) :
    e ∈ reportable i := by
  cases i with
  | mred | madd | msub | mmul => exact modularCommand_error_mem h fun p _ hf => nomatch hf
  | minv =>
    exact modularCommand_error_mem h fun p hp hf => inverse_error_mem hp (except_map_eq_error hf)
  | pchk =>
    rcases requireLocked_eq_error h with rfl | ⟨-, hr⟩
    · exact List.mem_cons_self
    · cases hr
  | pneg =>
    exact requireLocked_map_error_mem h fun _ hr => List.mem_singleton.mpr (negatePoint_error hr)
  | padd => exact requireLocked_map_error_mem h fun hl => groupAdd_error_mem (hp hl)
  | pdbl => exact requireLocked_map_error_mem h fun hl => groupAdd_self_error_mem (hp hl)
  | pmul => exact requireLocked_map_error_mem h fun hl => scalarMul_error_mem (hp hl)
  | pser => cases h
  | ppar => exact requireLocked_map_error_mem h fun _ => parse_error_mem
  | cfg => exact cmdCfg_error_mem h

/-- Settles O18: ERR is 0 or the code of the command's error. -/
theorem codesOfCommands : Obligations.CodesOfCommands := by
  intro i s t hp ht
  rw [exec_eq] at ht
  obtain rfl := Host.Outcome.next.inj ht
  rw [complete_err]
  cases hout : commandOutcome i s.operands with
  | ok _ => exact .inl rfl
  | error e => exact .inr ⟨e, commandOutcome_error_mem hp hout, rfl⟩

/-! ### What a host write does to DONE and LATCH (20_memory.md R79, 10_state.md R40) -/

@[simp] theorem dataWrite_status_done (blocked : Bool) (d : Data) (s : State) :
    (dataWrite blocked d s).status.done = s.status.done := by cases blocked <;> rfl

@[simp] theorem dataWrite_latch (blocked : Bool) (d : Data) (s : State) :
    (dataWrite blocked d s).latch = s.latch := by cases blocked <;> rfl

/-- No host write sets DONE. -/
theorem hostWrite_done {off : Offset} {v : Word32} {s : State}
    (h : (hostWrite off v s).status.done = true) : s.status.done = true := by
  unfold hostWrite at h
  cases ht : windowTarget off with
  | id | ctrl | reserved | bufLen | buf | data => simpa [ht] using h
  | status =>
    simp only [ht, writeStatus_status, Bool.and_eq_true] at h
    exact h.left
  | cmd =>
    cases hb : s.busy with
    | false => simp [ht, cmdWrite_idle s v hb, issue] at h
    | true => simpa [ht, cmdWrite_busy s v hb] using h

/-- A host write to an idle engine leaves it idle or issues the word written. -/
theorem hostWrite_idle_cases {s : State} (hidle : s.busy = false) (off : Offset) (v : Word32) :
    (hostWrite off v s).latch = none ∨ hostWrite off v s = issue v s := by
  have hl : s.latch = none := (busy_eq_false_iff s).mp hidle
  unfold hostWrite
  cases windowTarget off with
  | cmd => exact .inr (cmdWrite_idle s v hidle)
  | id | ctrl | status | reserved => exact .inl hl
  | bufLen | buf | data => exact .inl ((dataWrite_latch _ _ s).trans hl)

/-! ### The interrupt output (60_exceptions.md R271) -/

/-- DONE rises only where a completion ends the BUSY period. -/
theorem step_done_rises {s t : State} (h : step s = .next t) (h0 : s.status.done = false)
    (h1 : t.status.done = true) : s.busy = true ∧ t.busy = false := by
  have hstep := step_case s
  rw [h] at hstep
  have hsame : s.status.done ≠ true := Bool.eq_false_iff.mp h0
  cases hstep with
  | idle | read => exact absurd h1 hsame
  | write => exact absurd (hostWrite_done h1) hsame
  | reset => cases h1
  | illegal _ hl => exact ⟨busy_some s hl, rfl⟩
  | command _ hl => exact ⟨busy_some s hl, busy_none _ (complete_done _ _).left⟩

theorem irq_eq_false_of_done {s : State} (h : s.status.done = false) : s.irq = false := by
  rw [State.irq, h, Bool.false_and]

theorem irq_eq_false_of_doneIe {s : State} (h : s.ctrl.doneIe = false) : s.irq = false := by
  rw [State.irq, h, Bool.and_false]

/-- Settles O23: irq is read off its two bits, and each access that lowers it clears one of them. -/
theorem irqFollowsDone : Obligations.IrqFollowsDone := by
  refine ⟨fun s => ?_, fun s t => step_done_rises, fun s v hv => ?_, fun s v hidle => ?_,
    fun s v hv => ⟨irq_eq_false_of_doneIe hv, rfl⟩, fun s => rfl⟩
  · rw [hostRead_status, hostRead_ctrl, statusWord_getLsbD, ctrlWord_getLsbD, State.irq]
    exact Bool.and_eq_true_iff
  · rw [hostWrite_status]
    exact irq_eq_false_of_done (by simp [hv])
  · rw [hostWrite_cmd, cmdWrite_idle s v hidle]
    exact irq_eq_false_of_done rfl

/-! ### The invariant (60_exceptions.md R262, R267, 10_state.md R40, R41, 41_curve.md R174) -/

/-- The invariant speaks of the engine only, not of the script or the replies. -/
theorem State.Inv.of_sameEngine {s t : State} (h : s.Inv) (he : SameEngine s t) : t.Inv where
  latch l hl := by
    obtain ⟨hword, hdata, hlocked⟩ := h.latch l (he.latch ▸ hl)
    exact ⟨hword.trans he.cmd.symm, hdata.trans he.data.symm, he.status ▸ hlocked⟩
  done hb := he.status ▸ h.done (by rwa [State.busy, ← he.latch])
  locked hl := he.data ▸ h.locked (he.status ▸ hl)
  err := he.status ▸ h.err
  onCurve ho := he.status ▸ h.onCurve (he.status ▸ ho)

/-- Of an idle engine the invariant asks only for its clauses on the lock, ERR and ONCURVE. -/
theorem State.Inv.of_idle {s : State} (hidle : s.latch = none)
    (hlocked : s.status.cfgLocked = true → s.data.curveP ≠ 0) (herr : s.status.err.toNat ≤ 10)
    (honCurve : s.status.onCurve = true → s.status.cfgLocked = true) : s.Inv where
  latch _ hl := nomatch hidle.symm.trans hl
  done hb := nomatch (busy_none s hidle).symm.trans hb
  locked := hlocked
  err := herr
  onCurve := honCurve

section
variable {s : State} (h : s.Inv)
include h

theorem inv_completedWith (e : Err) : (completedWith e.code s).Inv :=
  .of_idle rfl h.locked (code_le_ten e) h.onCurve

/-- The completion of the command in flight: what it tested in LATCH holds of the registers. -/
theorem inv_complete {l : Latch} (hl : s.latch = some l) (i : Instr) :
    (complete (commandOutcome i l) s).Inv := by
  obtain ⟨-, hdata, hcfg⟩ := h.latch l hl
  cases hout : commandOutcome i l with
  | error e => exact inv_completedWith h e
  | ok e =>
    cases commandOutcome_ok hout with
    | reg | pair | buffer => exact .of_idle rfl h.locked (Nat.zero_le _) h.onCurve
    | onCurve _ _ hlock => exact .of_idle rfl h.locked (Nat.zero_le _) fun _ => hcfg ▸ hlock
    | lock _ hp =>
      refine .of_idle rfl (fun _ hzero => hp ?_) (Nat.zero_le _) fun _ => rfl
      rw [Latch.curve, hdata]
      exact congrArg BitVec.toNat hzero

/-- An issue takes its snapshot of the registers as they stand. -/
theorem inv_issue (w : Word32) : (issue w s).Inv where
  latch _ hl := Option.some.inj hl ▸ ⟨rfl, rfl, rfl⟩
  done _ := rfl
  locked := h.locked
  err := h.err
  onCurve := h.onCurve

/-- Idle, a host write leaves the engine idle or issues; busy, it reaches no register LATCH holds. -/
theorem inv_hostWrite (off : Offset) (v : Word32) : (hostWrite off v s).Inv := by
  obtain ⟨-, -, honCurve, hcfg, herr⟩ := hostWrite_kept off v s
  have hlocked : (hostWrite off v s).status.cfgLocked = true →
      (hostWrite off v s).data.curveP ≠ 0 := fun hl => by
    rw [hcfg] at hl
    obtain ⟨hcurveP, -⟩ := hostWrite_locked off v s hl
    exact hcurveP ▸ h.locked hl
  have herr' : (hostWrite off v s).status.err.toNat ≤ 10 := herr ▸ h.err
  have honCurve' : (hostWrite off v s).status.onCurve = true →
      (hostWrite off v s).status.cfgLocked = true := by rw [honCurve, hcfg]; exact h.onCurve
  cases hb : s.busy with
  | false =>
    rcases hostWrite_idle_cases hb off v with hidle | hissue
    · exact .of_idle hidle hlocked herr' honCurve'
    · exact hissue ▸ inv_issue h v
  | true =>
    obtain ⟨hdata, hlatch, hcmd⟩ := hostWrite_busy off v s hb
    refine ⟨fun l hl => ?_, fun _ => ?_, hlocked, herr', honCurve'⟩
    · obtain ⟨hword, hregs, hlock⟩ := h.latch l (hlatch ▸ hl)
      exact ⟨hword.trans hcmd.symm, hregs.trans hdata.symm, hlock.trans hcfg.symm⟩
    · exact Bool.eq_false_iff.mpr fun hdone =>
        Bool.eq_false_iff.mp (h.done hb) (hostWrite_done hdone)

end

/-- Settles O4, by the cases of a step: issue and busy writes keep LATCH equal to the registers, so what a
completing command tested in LATCH holds of them. -/
theorem stepKeepsInvariant : Obligations.StepKeepsInvariant := by
  intro s t hinv ht
  have hscript (rest : List Event) (replies : List Word32) :
      ({ s with script := rest, replies := replies } : State).Inv :=
    hinv.of_sameEngine ⟨rfl, rfl, rfl, rfl, rfl⟩
  have hstep := step_case s
  rw [ht] at hstep
  cases hstep with
  | idle => exact hinv
  | read => exact hscript _ _
  | write => exact inv_hostWrite (hscript _ s.replies) _ _
  | reset => exact resetMeetsInvariant.of_sameEngine ⟨rfl, rfl, rfl, rfl, rfl⟩
  | illegal => exact inv_completedWith (hscript _ s.replies) .illegal
  | @command rest _ i _ hl => exact inv_complete (hscript rest s.replies) hl i

end Sys2Proof.Machine

/-! PROOFS. Reset and the curve lock (70_reset_and_hazards.md R290, 44_config.md R252): what a reset step
leaves, and that no other step ends the lock or reaches a locked curve. -/

namespace Sys2Proof.Machine

/-! ### The reset step (70_reset_and_hazards.md R290) -/

/-- A reset gives the engine its reset state, whatever command is in flight. -/
theorem sameEngine_resetEngine (s : State) : SameEngine State.reset (resetEngine s) :=
  ⟨rfl, rfl, rfl, rfl, rfl⟩

theorem resetEngine_irq (s : State) : (resetEngine s).irq = false := irq_eq_false_of_done rfl

/-- A scripted reset is the reset of the engine, idle or busy. -/
theorem step_reset {s : State} {rest : List Event} (hs : s.script = .reset :: rest) :
    step s = .next (resetEngine { s with script := rest }) := step_cons hs

/-! ### The curve lock (44_config.md R252) -/

/-- t is locked, on the curve whose parameters stand in d. -/
structure LockedOnCurveOf (d : Data) (t : State) : Prop where
  cfgLocked : t.status.cfgLocked = true
  curveP : t.data.curveP = d.curveP
  curveA : t.data.curveA = d.curveA
  curveB : t.data.curveB = d.curveB

section
variable {s : State} (hl : s.status.cfgLocked = true)
include hl

/-- The only write an effect makes to CFG_LOCKED is to set it (10_state.md R42). -/
theorem applyEffect_cfgLocked (e : Effect) : (applyEffect e s).status.cfgLocked = true := by
  cases e with
  | lock => rfl
  | reg | pair | onCurve | buffer => exact hl

theorem complete_cfgLocked (r : Except Err Effect) : (complete r s).status.cfgLocked = true := by
  cases r with
  | error _ => exact hl
  | ok e => exact applyEffect_cfgLocked hl e

/-- A completion sets the lock at most and writes no curve parameter. -/
theorem complete_lockedOnCurveOf (r : Except Err Effect) : LockedOnCurveOf s.data (complete r s) := by
  obtain ⟨-, -, -, -, -, hp, ha, hb, -⟩ := complete_kept r s
  exact ⟨complete_cfgLocked hl r, hp, ha, hb⟩

/-- A host write reaches neither CFG_LOCKED nor a locked curve (20_memory.md R80). -/
theorem hostWrite_lockedOnCurveOf (off : Offset) (v : Word32) :
    LockedOnCurveOf s.data (hostWrite off v s) := by
  obtain ⟨-, -, -, hcfg, -⟩ := hostWrite_kept off v s
  obtain ⟨hp, ha, hb⟩ := hostWrite_locked off v s hl
  exact ⟨hcfg.trans hl, hp, ha, hb⟩

/-- Of the steps from a locked state only a reset can leave the lock or the curve changed. -/
theorem step_reset_or_lockedOnCurveOf {t : State} (h : step s = .next t) :
    (∃ rest, s.script = .reset :: rest) ∨ LockedOnCurveOf s.data t := by
  have hstep := step_case s
  rw [h] at hstep
  cases hstep with
  | reset hs => exact .inl ⟨_, hs⟩
  | idle | read | illegal => exact .inr ⟨hl, rfl, rfl, rfl⟩
  | @command rest => exact .inr (complete_lockedOnCurveOf (s := { s with script := rest }) hl _)
  | @write rest => exact .inr (hostWrite_lockedOnCurveOf (s := { s with script := rest }) hl _ _)

end

/-- Settles O2: a reset step is the reset of the engine, and every other step keeps the lock and its curve. -/
theorem resetStepAndLock : Obligations.ResetStepAndLock := by
  refine ⟨fun s rest hs => ⟨_, step_reset hs, sameEngine_resetEngine _, resetEngine_irq _⟩,
    fun s t ht hl => ?_⟩
  rcases step_reset_or_lockedOnCurveOf hl ht with hreset | ⟨hcfg, hp, ha, hb⟩
  · exact .inl hreset
  · exact .inr ⟨hcfg, hp, ha, hb⟩

end Sys2Proof.Machine
